-- ==== Sys2Proof/Word.lean ====
section
/-! DEFINITION. The word types of the block (spec 00_scope.md rules R1, R2; 30_encoding.md rule R74). -/

namespace Sys2Proof

/-- A byte is 8 bits (R2). -/
abbrev Byte := BitVec 8

/-- Every address is a 16-bit unsigned value, and address arithmetic wraps modulo 65536 (R1). -/
abbrev Addr := BitVec 16

/-- A 16-bit datum: the operand of WRW, the response of RDW, DIVIDER (R11, R48). -/
abbrev Word := BitVec 16

/-- The 36-bit command word `{op[35:32], a[31:16], d[15:0]}` (R74). -/
abbrev CommandWord := BitVec 36

end Sys2Proof
end

