-- ==== Sys2Proof/Config.lean ====
section
/-! DEFINITION. The configuration of a block (00_scope.md sections 6.2 and 6.3), the types it needs, and the free
values. What the rules write by NAME (P1_ADDR, TILE_LO, DMA_REG_STORE, ...) is a field of `Config`; what the rules
write as a LITERAL (0xFF46, bit 7, 0x30, ...) is a constant beside the operation that uses it. A free value is an
`opaque` constant without a body: no proof can see what it is, so a claim about it holds whatever it is. -/

namespace Sys2Proof

/-- P1_BOTH (R194): what the low nibble of P1 reads as while both groups are selected. -/
inductive P1Both where
  | dirFirst
  | btnFirst
  | andBoth
  | any
deriving DecidableEq, Repr, Inhabited

/-- DMA_SRC_PATH (R172): the path by which the DMA engine reads its source bytes. -/
inductive DmaSrcPath where
  | bus
  | raw
deriving DecidableEq, Repr, Inhabited

/-- The closed set of BankController variants (R155). `romOnly` is the variant R162 specifies in full;
`collab tag` is a collaborator-defined strategy (R163), of which only the contract R155 to R159, R164 is known. -/
inductive BcVariant where
  | romOnly
  | collab (tag : Nat)
deriving DecidableEq, Repr, Inhabited

/-- The BankController state (R13): variant tag, ROM image, bank-select state, external cartridge RAM
(`xram` is empty where the cartridge has none). -/
structure BankController where
  variant : BcVariant
  rom     : List Byte
  bank    : List Byte
  xram    : List Byte
deriving DecidableEq, Repr, Inhabited

/-- The parameters a model takes as its configuration (00_scope.md 6.2, 6.3). -/
structure Config where
  p1Addr         : Addr
  divAddr        : Addr
  timaAddr       : Addr
  tmaAddr        : Addr
  tacAddr        : Addr
  ifAddr         : Addr
  lcdcAddr       : Addr
  statAddr       : Addr
  tileLo         : Addr
  tileHi         : Addr
  cartTypeOff    : Nat
  logoOff        : Addr
  logo           : List Byte
  tileBaseU      : Addr
  tileBaseS      : Addr
  p1Both         : P1Both
  dmaRegStore    : Bool
  dmaSrcPath     : DmaSrcPath
  bootTableExtra : List (Addr × Byte)
  bootDivider    : Word
  bcVariants     : List (Byte × BcVariant)
deriving DecidableEq, Repr

/-! ### Free values. The `Nat` argument of the first five is `State.draws`. -/

/-- The low nibble of P1 with both groups selected under P1_BOTH = `any` (R194). Free (log entry 7). Arguments after
the counter: P1's stored byte and KEYS. R194 leaves open what the nibble depends on. DESIGN CHOICE: it may depend on
these, as the other readings do, and on nothing else of the state but the counter. -/
opaque Config.freeNibble : Nat → Byte → Byte → BitVec 4

/-- DIVIDER after a failed RESET (R222: unspecified). Free (log entry 8). -/
opaque Config.freeDivider : Nat → Word

/-- KEYS after a failed RESET (R222: unspecified). Free (log entry 8). -/
opaque Config.freeKeys : Nat → Byte

/-- The cells of MEM after a failed RESET (R222: unspecified). Free (log entry 8). -/
opaque Config.freeCells : Nat → List Host.Cell

/-- BC after a failed RESET (R222: unspecified). Free (log entry 8). -/
opaque Config.freeBank : Nat → BankController

/-! ### The collaborator-defined BankController algorithms (R155 to R159, R163): free functions of what the contract
lets them depend on. Arguments: the variant's tag, the ROM image, the bank-select state, the external RAM where the
contract does not exclude it, the full bus address. -/

/-- The bank-select state `new` starts a collaborator's variant with (R160). Free (log entry 9). -/
opaque Config.collabBankInit : Nat → List Byte → List Byte

/-- The external RAM `new` starts a collaborator's variant with (R160). Free (log entry 9). -/
opaque Config.collabXramInit : Nat → List Byte → List Byte

/-- Which byte of the ROM image the bank-select state maps at a ROM-window address (R156). Free (log entry 9). -/
opaque Config.collabRomIndex : Nat → List Byte → List Byte → Addr → Nat

/-- What a collaborator's variant returns where the image does not cover the address (R156). Free (log entry 9). R156
leaves it to the variant, so it may depend on all of R155's state `S`: image, bank-select state, external RAM. -/
opaque Config.collabRomFill : Nat → List Byte → List Byte → List Byte → Addr → Byte

/-- Which byte of the external RAM the bank-select state maps at a RAM-window address, `none` where no RAM is
mapped (R158). Free (log entry 9). -/
opaque Config.collabRamIndex : Nat → List Byte → List Byte → Addr → Option Nat

/-- The bank-select state after a write of a byte to a ROM-window address (R157). Free (log entry 9). R155 and R157
leave open whether it depends on the external RAM's content. DESIGN CHOICE: the external RAM is an argument (after image
and bank-select state), so that it may; no dependence is excluded and none is assumed. -/
opaque Config.collabBankWrite : Nat → List Byte → List Byte → List Byte → Addr → Byte → List Byte

end Sys2Proof
end

