-- ==== Sys2Proof/Machine/Map.lean ====
section
/-! DEFINITION. The address map (00_scope.md section 6.1, 20_memory.md rule R41): the ranges the source fixes, the
DMA trigger, the ranges and registers the configuration names, and which configurations are admitted (R7). -/

namespace Sys2Proof.Machine

/-- Cartridge ROM window [0x0000,0x7FFF]. -/
abbrev inRom (a : Addr) : Prop := a.toNat ≤ 0x7FFF

/-- Cartridge RAM window [0xA000,0xBFFF]. -/
abbrev inXram (a : Addr) : Prop := 0xA000 ≤ a.toNat ∧ a.toNat ≤ 0xBFFF

/-- Mirrored part of working RAM, [0xC000,0xDE00). -/
abbrev inMirror (a : Addr) : Prop := 0xC000 ≤ a.toNat ∧ a.toNat < 0xDE00

/-- Echo RAM, [0xE000,0xFE00). -/
abbrev inEcho (a : Addr) : Prop := 0xE000 ≤ a.toNat ∧ a.toNat < 0xFE00

/-- Sprite table [0xFE00,0xFE9F] (R44). -/
abbrev inOam (a : Addr) : Prop := 0xFE00 ≤ a.toNat ∧ a.toNat ≤ 0xFE9F

/-- Tile memory [TILE_LO,TILE_HI] (R45). -/
abbrev inTile (c : Config) (a : Addr) : Prop := c.tileLo.toNat ≤ a.toNat ∧ a.toNat ≤ c.tileHi.toNat

/-- ECHO_OFF, the distance between a mirrored byte and its echo. -/
def echoOff : Addr := 0x2000

/-- OAM_LO, the first byte of the sprite table and the DMA destination. -/
def oamLo : Addr := 0xFE00

/-- DMA_LEN, the number of bytes one DMA copies. -/
def dmaLen : Nat := 0xA0

/-- DMA_ADDR, the DMA-trigger register: the one register address the source gives (R23). -/
def dmaAddr : Addr := 0xFF46

/-- XRAM_FILL, what a read of absent cartridge RAM returns (R158). -/
def xramFill : Byte := 0xFF

/-- The registers that have no fixed address, with DMA_ADDR: the nine addresses of R7. -/
def registerAddrs (c : Config) : List Addr :=
  [c.p1Addr, c.divAddr, c.timaAddr, c.tmaAddr, c.tacAddr, c.ifAddr, c.lcdcAddr, c.statAddr, dmaAddr]

/-- The address sets of the decode chains as closed intervals (R7): the nine registers, the two cartridge windows,
the working and echo RAM [0xC000,0xFDFF], the sprite table and tile memory. -/
def addressSets (c : Config) : List (Nat × Nat) :=
  (registerAddrs c).map (fun a => (a.toNat, a.toNat)) ++
    [(0x0000, 0x7FFF), (0xA000, 0xBFFF), (0xC000, 0xFDFF), (0xFE00, 0xFE9F), (c.tileLo.toNat, c.tileHi.toNat)]

/-- Two closed intervals have no address in common. -/
def apart (x y : Nat × Nat) : Bool := decide (x.2 < y.1) || decide (y.2 < x.1)

/-- The intervals of a list are pairwise disjoint. -/
def pairwiseApart : List (Nat × Nat) → Bool
  | [] => true
  | x :: rest => rest.all (apart x) && pairwiseApart rest

/-- BOOT_TABLE_EXTRA may name [0xFF00,0xFFFF] but for P1_ADDR, STAT_ADDR and IF_ADDR (00_scope.md 6.3). -/
def extraAllowed (c : Config) (a : Addr) : Bool :=
  decide (0xFF00 ≤ a.toNat) && a != c.p1Addr && a != c.statAddr && a != c.ifAddr

/-- The keys of a list of pairs are distinct: the list is a map. -/
def keysDistinct : List (Byte × BcVariant) → Bool
  | [] => true
  | e :: rest => rest.all (fun f => f.1 != e.1) && keysDistinct rest

/-- The admitted configurations. R33: LOGO has 48 bytes. The logo lies under the ROM window, as R27 and R32 take it to
(DEDUCED, log entry 5). 00_scope.md 6.3: BOOT_TABLE_EXTRA stays in its range. R155: BC_VARIANTS is a map that contains
ROM_ONLY. R7: the address sets are pairwise disjoint. -/
def admitted (c : Config) : Bool :=
  c.logo.length == 48 && decide (c.logoOff.toNat + 48 ≤ 0x8000) &&
    c.bootTableExtra.all (fun e => extraAllowed c e.1) &&
    keysDistinct c.bcVariants && c.bcVariants.any (fun e => e.2 == .romOnly) &&
    pairwiseApart (addressSets c)

end Sys2Proof.Machine
end

