-- ==== Sys2Proof/Machine/Params.lean ====
section
/-! DEFINITION. The values the spec takes for the configuration (00_scope.md sections 6.2 and 6.3: defaults and
recommended values), and the ROM image `State.reset` is built from. -/

namespace Sys2Proof.Machine

/-- LOGO, the 48-byte signature of R33 (PRESUMED, log entry 2: general knowledge in the spec's own words). -/
def logoBytes : List Byte :=
  [0xCE, 0xED, 0x66, 0x66, 0xCC, 0x0D, 0x00, 0x0B, 0x03, 0x73, 0x00, 0x83, 0x00, 0x0C, 0x00, 0x0D] ++
  [0x00, 0x08, 0x11, 0x1F, 0x88, 0x89, 0x00, 0x0E, 0xDC, 0xCC, 0x6E, 0xE6, 0xDD, 0xDD, 0xD9, 0x99] ++
  [0xBB, 0xBB, 0x67, 0x63, 0x6E, 0x0E, 0xEC, 0xCC, 0xDD, 0xDC, 0x99, 0x9F, 0xBB, 0xB9, 0x33, 0x3E]

/-- The default and recommended parameter values (00_scope.md 6.2, 6.3; decisions D3, D5, D6, D9, D10, D18, D19, D21,
D22, D25). -/
def defaultConfig : Config where
  p1Addr         := 0xFF00
  divAddr        := 0xFF04
  timaAddr       := 0xFF05
  tmaAddr        := 0xFF06
  tacAddr        := 0xFF07
  ifAddr         := 0xFF0F
  lcdcAddr       := 0xFF40
  statAddr       := 0xFF41
  tileLo         := 0x8000
  tileHi         := 0x9FFF
  cartTypeOff    := 0x0147
  logoOff        := 0x0104
  logo           := logoBytes
  tileBaseU      := 0x8000
  tileBaseS      := 0x9000
  p1Both         := .any
  dmaRegStore    := false
  dmaSrcPath     := .bus
  bootTableExtra := []
  bootDivider    := 0x0000
  bcVariants     := [(0x00, .romOnly)]

/-- The ROM image of the RESET that `State.reset` stands for: the shortest image whose header byte selects ROM_ONLY,
all bytes 0x00 (DESIGN CHOICE, log entry 11: the image is an argument of RESET). -/
def resetImage : List Byte := List.replicate 0x0148 0x00

end Sys2Proof.Machine
end

