-- ==== Sys2Proof/Syntax.lean ====
section
/-! DEFINITION. The operations as syntax: one constructor for every row of spec/opcode_table.json, in its order.
RD and WR have one row for each arm of their decode chain (30_encoding.md rules R77, R78); an operand that the row
fixes (the address of a single register) is no field. -/

namespace Sys2Proof

/-- The addressing mode `m` of RDBT (R183): 0 = unsigned base, 1 = signed-index base. -/
inductive TileMode where
  | unsignedBase
  | signedIndex
deriving DecidableEq, Repr, Inhabited

/-- The port operations of R73. `a` is a full bus address, `v` a byte. -/
inductive Instr where
  /-- RD.ROM: RD in the cartridge ROM window (R101). -/
  | rdRom (a : Addr)
  /-- RD.XRAM: RD in the cartridge RAM window (R102). -/
  | rdXram (a : Addr)
  /-- RD.P1: RD at P1_ADDR (R103). -/
  | rdP1
  /-- RD.DIV: RD at DIV_ADDR (R104). -/
  | rdDiv
  /-- RD.OAM.0: RD in [0xFE00,0xFE7F] (R105). -/
  | rdOam0 (a : Addr)
  /-- RD.OAM.1: RD in [0xFE80,0xFE9F] (R105). -/
  | rdOam1 (a : Addr)
  /-- RD.TILE: RD in [TILE_LO,TILE_HI] (R105). -/
  | rdTile (a : Addr)
  /-- RD.MEM: RD at every other address (R106). -/
  | rdMem (a : Addr)
  /-- WR.ROM: WR in the cartridge ROM window (R121). -/
  | wrRom (a : Addr) (v : Byte)
  /-- WR.XRAM: WR in the cartridge RAM window (R122). -/
  | wrXram (a : Addr) (v : Byte)
  /-- WR.P1: WR at P1_ADDR (R123). -/
  | wrP1 (v : Byte)
  /-- WR.DIV: WR at DIV_ADDR (R124). -/
  | wrDiv (v : Byte)
  /-- WR.LCDC.OFF: WR at LCDC_ADDR of a value with bit 7 clear (R125). -/
  | wrLcdcOff (v : Byte)
  /-- WR.DMA: WR at DMA_ADDR of the page `v` (R126). -/
  | wrDma (v : Byte)
  /-- WR.MIR.0: WR in [0xC000,0xCFFF] (R128). -/
  | wrMir0 (a : Addr) (v : Byte)
  /-- WR.MIR.1: WR in [0xD000,0xD7FF] (R128). -/
  | wrMir1 (a : Addr) (v : Byte)
  /-- WR.MIR.2: WR in [0xD800,0xDBFF] (R128). -/
  | wrMir2 (a : Addr) (v : Byte)
  /-- WR.MIR.3: WR in [0xDC00,0xDDFF] (R128). -/
  | wrMir3 (a : Addr) (v : Byte)
  /-- WR.ECHO.0: WR in [0xE000,0xEFFF] (R129). -/
  | wrEcho0 (a : Addr) (v : Byte)
  /-- WR.ECHO.1: WR in [0xF000,0xF7FF] (R129). -/
  | wrEcho1 (a : Addr) (v : Byte)
  /-- WR.ECHO.2: WR in [0xF800,0xFBFF] (R129). -/
  | wrEcho2 (a : Addr) (v : Byte)
  /-- WR.ECHO.3: WR in [0xFC00,0xFDFF] (R129). -/
  | wrEcho3 (a : Addr) (v : Byte)
  /-- WR.MEM: WR at every other address (R127). -/
  | wrMem (a : Addr) (v : Byte)
  /-- RDW: resolved word read (R108). -/
  | rdw (a : Addr)
  /-- WRW: resolved word write (R133). -/
  | wrw (a : Addr) (w : Word)
  /-- URD: unchecked byte read (R109). -/
  | urd (a : Addr)
  /-- TICK: advance the timer by `n` units (R140). -/
  | tick (n : Word)
  /-- OAMS.0: sprite slot read, slots 0 to 31 (R180). -/
  | oams0 (k : BitVec 6)
  /-- OAMS.1: sprite slot read, slots 32 to 39 (R180). -/
  | oams1 (k : BitVec 6)
  /-- RDT: tile read by data address (R181). -/
  | rdt (a : Addr)
  /-- RDBT: tile read through a tile map (R183). -/
  | rdbt (a : Addr) (m : TileMode)
  /-- KEY: key state update (R195). -/
  | key (k : Byte)
  /-- RESET: construction with boot flag `b`; the ROM image is a sideband input (R220). -/
  | reset (b : Bool)
deriving DecidableEq, Repr

end Sys2Proof
end

