-- ==== Sys2Proof/WellFormed.lean ====
section
/-! DEFINITION. Which terms of `Instr` stand for a command of the block under a configuration: the address lies in the
arm the row of spec/opcode_table.json names, with every earlier arm of the chain excluded (30_encoding.md rules R77,
R78), and OAMS names one of the 40 slots (R180). -/

namespace Sys2Proof

open Sys2Proof.Machine

/-- No arm of the read chain but the default matches (R77). -/
abbrev readsPlain (c : Config) (a : Addr) : Prop :=
  ¬ inRom a ∧ ¬ inXram a ∧ a ≠ c.p1Addr ∧ a ≠ c.divAddr ∧ ¬ inOam a ∧ ¬ inTile c a

/-- No arm of the write chain but the default without mirroring matches (R78). -/
abbrev writesPlain (c : Config) (a : Addr) (v : Byte) : Prop :=
  ¬ inRom a ∧ ¬ inXram a ∧ a ≠ c.p1Addr ∧ a ≠ c.divAddr ∧ ¬ (a = c.lcdcAddr ∧ v.getLsbD 7 = false) ∧
    a ≠ dmaAddr ∧ ¬ inMirror a ∧ ¬ inEcho a

/-- `lo ≤ a ≤ hi`, the address range of a row of the opcode table. -/
abbrev between (lo hi : Nat) (a : Addr) : Prop := lo ≤ a.toNat ∧ a.toNat ≤ hi

/-- The well-formed operations under a configuration. -/
def Instr.wf (c : Config) : Instr → Bool
  | .rdRom a     => decide (inRom a)
  | .rdXram a    => decide (inXram a)
  | .rdP1        => true
  | .rdDiv       => true
  | .rdOam0 a    => decide (between 0xFE00 0xFE7F a)
  | .rdOam1 a    => decide (between 0xFE80 0xFE9F a)
  | .rdTile a    => decide (inTile c a)
  | .rdMem a     => decide (readsPlain c a)
  | .wrRom a _   => decide (inRom a)
  | .wrXram a _  => decide (inXram a)
  | .wrP1 _      => true
  | .wrDiv _     => true
  | .wrLcdcOff v => decide (v.getLsbD 7 = false)
  | .wrDma _     => true
  | .wrMir0 a _  => decide (between 0xC000 0xCFFF a)
  | .wrMir1 a _  => decide (between 0xD000 0xD7FF a)
  | .wrMir2 a _  => decide (between 0xD800 0xDBFF a)
  | .wrMir3 a _  => decide (between 0xDC00 0xDDFF a)
  | .wrEcho0 a _ => decide (between 0xE000 0xEFFF a)
  | .wrEcho1 a _ => decide (between 0xF000 0xF7FF a)
  | .wrEcho2 a _ => decide (between 0xF800 0xFBFF a)
  | .wrEcho3 a _ => decide (between 0xFC00 0xFDFF a)
  | .wrMem a v   => decide (writesPlain c a v)
  | .rdw _       => true
  | .wrw _ _     => true
  | .urd _       => true
  | .tick _      => true
  | .oams0 k     => decide (k.toNat < 32)
  | .oams1 k     => decide (32 ≤ k.toNat ∧ k.toNat < 40)
  | .rdt _       => true
  | .rdbt _ _    => true
  | .key _       => true
  | .reset _     => true

end Sys2Proof
end

