-- ==== Sys2Proof/Decode.lean ====
section
/-! DEFINITION. Decoding the 36-bit command word (30_encoding.md rules R73, R74, R76 to R79), and after it the encoder,
written from the same rules. Decoding is total: every word is an operation or is rejected by name. The configuration
is an argument, since it places the arms of the read and write chains. -/

namespace Sys2Proof

open Sys2Proof.Machine

/-- Why a command is a reserved encoding (R79). -/
inductive Reserved where
  /-- An operation code 0xB to 0xF. -/
  | opcode
  /-- A non-zero unused bit (R76). -/
  | unusedBits
  /-- OAMS with `k >= 40` (R180). -/
  | slotIndex
deriving DecidableEq, Repr, Inhabited

/-- The field op[35:32]. -/
def cmdOp (w : CommandWord) : BitVec 4 := w.extractLsb' 32 4

/-- The field a[31:16]. -/
def cmdA (w : CommandWord) : Addr := w.extractLsb' 16 16

/-- The field d[15:0]. -/
def cmdD (w : CommandWord) : Word := w.extractLsb' 0 16

/-- The read chain as a classification of the address, first match wins (R77). The state's part of arms 5 and 6 (the
display mode) is tested when the operation runs. -/
def classifyRead (c : Config) (a : Addr) : Instr :=
  if inRom a then .rdRom a
  else if inXram a then .rdXram a
  else if a = c.p1Addr then .rdP1
  else if a = c.divAddr then .rdDiv
  else if between 0xFE00 0xFE7F a then .rdOam0 a
  else if between 0xFE80 0xFE9F a then .rdOam1 a
  else if inTile c a then .rdTile a
  else .rdMem a

/-- The write chain as a classification of address and value, first match wins (R78). -/
def classifyWrite (c : Config) (a : Addr) (v : Byte) : Instr :=
  if inRom a then .wrRom a v
  else if inXram a then .wrXram a v
  else if a = c.p1Addr then .wrP1 v
  else if a = c.divAddr then .wrDiv v
  else if a = c.lcdcAddr ∧ v.getLsbD 7 = false then .wrLcdcOff v
  else if a = dmaAddr then .wrDma v
  else if between 0xC000 0xCFFF a then .wrMir0 a v
  else if between 0xD000 0xD7FF a then .wrMir1 a v
  else if between 0xD800 0xDBFF a then .wrMir2 a v
  else if between 0xDC00 0xDDFF a then .wrMir3 a v
  else if between 0xE000 0xEFFF a then .wrEcho0 a v
  else if between 0xF000 0xF7FF a then .wrEcho1 a v
  else if between 0xF800 0xFBFF a then .wrEcho2 a v
  else if between 0xFC00 0xFDFF a then .wrEcho3 a v
  else .wrMem a v

/-- OAMS by slot index, split as the table splits it; an index past the table is reserved (R79, R180). -/
def classifySlot (k : BitVec 6) : Except Reserved Instr :=
  if k.toNat < 32 then .ok (.oams0 k) else if k.toNat < 40 then .ok (.oams1 k) else .error .slotIndex

/-- An operation whose unused bits must be zero (R76). -/
def requireZero (unused : Prop) [Decidable unused] (r : Except Reserved Instr) : Except Reserved Instr :=
  if unused then r else .error .unusedBits

/-- The decoder over the fields: operation code, first operand, second operand (R73, R74, R76). -/
def decodeFields (c : Config) (op : BitVec 4) (a : Addr) (d : Word) : Except Reserved Instr :=
  match op.toNat with
  | 0x0 => requireZero (d = 0) (.ok (classifyRead c a))
  | 0x1 => requireZero (d.extractLsb' 8 8 = 0) (.ok (classifyWrite c a (d.extractLsb' 0 8)))
  | 0x2 => requireZero (d = 0) (.ok (.rdw a))
  | 0x3 => .ok (.wrw a d)
  | 0x4 => requireZero (d = 0) (.ok (.urd a))
  | 0x5 => requireZero (d = 0) (.ok (.tick a))
  | 0x6 => requireZero (d = 0 ∧ a.extractLsb' 6 10 = 0) (classifySlot (a.extractLsb' 0 6))
  | 0x7 => requireZero (d = 0) (.ok (.rdt a))
  | 0x8 => requireZero (d.extractLsb' 1 15 = 0)
             (.ok (.rdbt a (if d.getLsbD 0 then .signedIndex else .unsignedBase)))
  | 0x9 => requireZero (d = 0 ∧ a.extractLsb' 8 8 = 0) (.ok (.key (a.extractLsb' 0 8)))
  | 0xA => requireZero (d.extractLsb' 1 15 = 0 ∧ a = 0) (.ok (.reset (d.getLsbD 0)))
  | _   => .error .opcode

/-- The operation a command word stands for, or the reason it is reserved. -/
def decode (c : Config) (w : CommandWord) : Except Reserved Instr :=
  decodeFields c (cmdOp w) (cmdA w) (cmdD w)

/-- The operation that an opcode-table row's word (bit 0 least significant) decodes to under the default
configuration, which is the one the table's rows are written for; none where the decoder refuses. -/
def decodeTableWord (nbits w : Nat) : Option Instr :=
  if w % 2 ^ nbits < 2 ^ 36 then
    match decode defaultConfig (BitVec.ofNat 36 (w % 2 ^ nbits)) with
    | .ok i => some i
    | .error _ => none
  else none

/-! ### The encoder -/

/-- The word `{op, a, d}` (R74). -/
def command (op : BitVec 4) (a : Addr) (d : Word) : CommandWord := (op ++ a ++ d).cast (by decide)

/-- An RD command (op 0x0). -/
def encodeRd (a : Addr) : CommandWord := command 0x0 a 0

/-- A WR command (op 0x1), the byte in d[7:0]. -/
def encodeWr (a : Addr) (v : Byte) : CommandWord := command 0x1 a (v.setWidth 16)

/-- The mode `m` of RDBT in d[0] (R183). -/
def modeField (m : TileMode) : Word :=
  match m with
  | .unsignedBase => 0
  | .signedIndex => 1

/-- The boot flag `b` of RESET in d[0] (R220). -/
def flagField (b : Bool) : Word := if b then 1 else 0

/-- The command word of an operation under a configuration (R73, R74, R76). -/
def encode (c : Config) : Instr → CommandWord
  | .rdRom a     => encodeRd a
  | .rdXram a    => encodeRd a
  | .rdP1        => encodeRd c.p1Addr
  | .rdDiv       => encodeRd c.divAddr
  | .rdOam0 a    => encodeRd a
  | .rdOam1 a    => encodeRd a
  | .rdTile a    => encodeRd a
  | .rdMem a     => encodeRd a
  | .wrRom a v   => encodeWr a v
  | .wrXram a v  => encodeWr a v
  | .wrP1 v      => encodeWr c.p1Addr v
  | .wrDiv v     => encodeWr c.divAddr v
  | .wrLcdcOff v => encodeWr c.lcdcAddr v
  | .wrDma v     => encodeWr dmaAddr v
  | .wrMir0 a v  => encodeWr a v
  | .wrMir1 a v  => encodeWr a v
  | .wrMir2 a v  => encodeWr a v
  | .wrMir3 a v  => encodeWr a v
  | .wrEcho0 a v => encodeWr a v
  | .wrEcho1 a v => encodeWr a v
  | .wrEcho2 a v => encodeWr a v
  | .wrEcho3 a v => encodeWr a v
  | .wrMem a v   => encodeWr a v
  | .rdw a       => command 0x2 a 0
  | .wrw a w     => command 0x3 a w
  | .urd a       => command 0x4 a 0
  | .tick n      => command 0x5 n 0
  | .oams0 k     => command 0x6 (k.setWidth 16) 0
  | .oams1 k     => command 0x6 (k.setWidth 16) 0
  | .rdt a       => command 0x7 a 0
  | .rdbt a m    => command 0x8 a (modeField m)
  | .key k       => command 0x9 (k.setWidth 16) 0
  | .reset b     => command 0xA 0 (flagField b)

end Sys2Proof
end

