-- ==== Sys2Proof/Machine/Bank.lean ====
section
/-! DEFINITION. The BankController (43_bank_controller.md): its four operations and its construction, for ROM_ONLY as
R162 gives it and for a collaborator's variant as the contract R155 to R159 and R164 leaves it, with free values for
the algorithms. Every operation is total and takes the full bus address. -/

namespace Sys2Proof.Machine

/-- `read_rom(a)` (R156, R162). -/
def bcReadRom (b : BankController) (a : Addr) : Byte :=
  match b.variant with
  | .romOnly => b.rom.getD a.toNat 0xFF
  | .collab t =>
    b.rom.getD (Config.collabRomIndex t b.rom b.bank a) (Config.collabRomFill t b.rom b.bank b.xram a)

/-- `write_rom(a, v)`: the bank-select state only (R157, R121); ignored by ROM_ONLY (R162). That a collaborator's new
bank-select state may depend on the external RAM is log entry 9. -/
def bcWriteRom (b : BankController) (a : Addr) (v : Byte) : BankController :=
  match b.variant with
  | .romOnly => b
  | .collab t => { b with bank := Config.collabBankWrite t b.rom b.bank b.xram a v }

/-- `read_ram(a)`: the mapped byte of external RAM, or XRAM_FILL where no RAM is mapped (R158, R162). -/
def bcReadRam (b : BankController) (a : Addr) : Byte :=
  match b.variant with
  | .romOnly => xramFill
  | .collab t =>
    match Config.collabRamIndex t b.rom b.bank a with
    | some k => b.xram.getD k xramFill
    | none => xramFill

/-- `write_ram(a, v)`: the mapped byte of external RAM; ignored where no RAM is mapped (R159, R162, R122). -/
def bcWriteRam (b : BankController) (a : Addr) (v : Byte) : BankController :=
  match b.variant with
  | .romOnly => b
  | .collab t =>
    match Config.collabRamIndex t b.rom b.bank a with
    | some k => { b with xram := b.xram.set k v }
    | none => b

/-- `V.new(rom)` (R160, R162): ROM_ONLY has no bank-select state and no external RAM. -/
def bcStart (v : BcVariant) (rom : List Byte) : BankController :=
  match v with
  | .romOnly => { variant := .romOnly, rom := rom, bank := [], xram := [] }
  | .collab t =>
    { variant := .collab t, rom := rom, bank := Config.collabBankInit t rom, xram := Config.collabXramInit t rom }

/-- The variant BC_VARIANTS maps a header byte to (R155, R160). -/
def bcLookup (l : List (Byte × BcVariant)) (h : Byte) : Option BcVariant :=
  match l with
  | [] => none
  | (k, v) :: rest => if k = h then some v else bcLookup rest h

/-- `BC_new(rom)` (R160). ConstructionFailure carries the header byte, or `none` for an image too short to hold it
(R161, R201); there is no fallback variant. -/
def bcNew (c : Config) (rom : List Byte) : Except (Option Byte) BankController :=
  match rom[c.cartTypeOff]? with
  | none => .error none
  | some h =>
    match bcLookup c.bcVariants h with
    | none => .error (some h)
    | some v => .ok (bcStart v rom)

end Sys2Proof.Machine
end

