-- ==== Sys2Proof/Machine/Memory.lean ====
section
/-! DEFINITION. The flat store MEM as a list of cells in one canonical form (10_state.md rule R10; R2): addresses
strictly rising and below 65536, no cell holding what an unlisted address reads as. -/

namespace Sys2Proof.Machine

/-- The cells of MEM whose byte is not `unlistedByte`. -/
abbrev Memory := List Host.Cell

/-- What an address that is not listed reads as: 0x00, the content RESET leaves (R31, R221; log entry 10). -/
def unlistedByte : Byte := 0x00

/-- The byte at an address. -/
def Memory.read (m : Memory) (a : Nat) : Byte :=
  match m with
  | [] => unlistedByte
  | (k, v) :: rest => if k = a then v else Memory.read rest a

/-- The memory without a cell at an address. -/
def Memory.erase (m : Memory) (a : Nat) : Memory := m.filter (fun c => c.1 != a)

/-- The memory with one more cell, put before the first cell of a higher address. -/
def Memory.insert (m : Memory) (a : Nat) (v : Byte) : Memory :=
  match m with
  | [] => [(a, v)]
  | c :: rest => if a < c.1 then (a, v) :: c :: rest else c :: Memory.insert rest a v

/-- The memory after a store of one byte. -/
def Memory.write (m : Memory) (a : Nat) (v : Byte) : Memory :=
  if v = unlistedByte then Memory.erase m a else Memory.insert (Memory.erase m a) a v

/-- The memory after a list of stores, the first one first. -/
def Memory.writeAll (m : Memory) (l : List (Addr × Byte)) : Memory :=
  l.foldl (fun m e => Memory.write m e.1.toNat e.2) m

/-- The canonical memory that a list of cells stands for, addresses taken modulo 65536 (R1). -/
def Memory.ofCells (l : List Host.Cell) : Memory :=
  l.foldl (fun m e => Memory.write m (e.1 % 65536) e.2) []

/-- The canonical form. -/
abbrev Memory.wf (m : Memory) : Prop :=
  m.Pairwise (fun x y => x.1 < y.1) ∧ ∀ c ∈ m, c.1 < 65536 ∧ c.2 ≠ unlistedByte

end Sys2Proof.Machine
end

