-- ==== Sys2Proof/Machine/Boot.lean ====
section
/-! DEFINITION. What RESET seeds into MEM and DIVIDER (70_reset_and_hazards.md rules R220, R223, R224). All stores are
raw stores into a MEM of zeros. -/

namespace Sys2Proof.Machine

/-- The stores of an unbooted RESET: LOGO at LOGO_OFF (R223). -/
def logoStores (c : Config) : List (Addr × Byte) :=
  c.logo.zipIdx.map (fun e => (c.logoOff + BitVec.ofNat 16 e.2, e.1))

/-- The stores of a booted RESET: the three values of R224, then BOOT_TABLE_EXTRA. -/
def bootStores (c : Config) : List (Addr × Byte) :=
  [(c.p1Addr, 0xFF), (c.statAddr, 0x81), (c.ifAddr, 0xE1)] ++ c.bootTableExtra

/-- MEM after a RESET with boot flag `b` that did not fail (R220, R221). -/
def resetMem (c : Config) (b : Bool) : Memory :=
  Memory.writeAll [] (if b then bootStores c else logoStores c)

/-- DIVIDER after a RESET with boot flag `b` that did not fail (R32, R34). -/
def resetDivider (c : Config) (b : Bool) : Word := if b then c.bootDivider else 0x0000

end Sys2Proof.Machine
end

