-- ==== Sys2Proof/Machine/State.lean ====
section
/-! DEFINITION. The state of the machine, why a step can stop, and the state after reset. -/

namespace Sys2Proof.Machine

/-- The five ports, each driven by one master outside the block (30_encoding.md rule R70). -/
inductive Port where
  | cpu
  | display
  | timebase
  | input
  | reset
deriving DecidableEq, Repr, Inhabited

/-- A command a master has presented: the port, the command word (R71, R74), and the ROM image on the reset port's
sideband, which only RESET reads (R220, R25). -/
structure Command where
  port : Port
  word : CommandWord
  rom  : List Byte
deriving DecidableEq, Repr

/-- A response value (R75). WR, WRW, TICK, KEY and RESET have none. -/
inductive Response where
  /-- RD, URD: 8 bits. -/
  | byte (v : BitVec 8)
  /-- RDW: 16 bits, the low byte from address `a`. -/
  | word (v : BitVec 16)
  /-- OAMS: 32 bits, descriptor byte `i` in bits 8i+7 to 8i. -/
  | slot (v : BitVec 32)
  /-- RDT, RDBT: 128 bits, packed row `r` in bits 16r+15 to 16r. -/
  | tile (v : BitVec 128)
deriving DecidableEq, Repr

/-- All state of the block (10_state.md section 1: `mem`, `divider`, `keys`, `bc`, `failed`), then what the ports hold
(`inbox`, `port`, `romIn`, `response`: 30_encoding.md rules R71, R74, R75), then the configuration, which no step
changes, and the model's own counter `draws`. The registers P1, TIMA, TMA, TAC, IF, LCDC, STAT and DMA are bytes of
`mem` (R14). -/
structure State where
  /-- MEM, the flat store of 65536 bytes (R10). -/
  mem      : Memory
  /-- DIVIDER (R11). -/
  divider  : Word
  /-- KEYS, 1 = pressed (R12). -/
  keys     : Byte
  /-- BC (R13). -/
  bc       : BankController
  /-- FAILED (R24), an output of the block (R75). -/
  failed   : Bool
  /-- The commands the masters have presented and the block has not accepted, in the order they are served (R71). -/
  inbox    : List Command
  /-- The port of the command accepted last: the one `response` is presented on (R71). -/
  port     : Port
  /-- The sideband of the command accepted last: RESET's ROM image (R220). -/
  romIn    : List Byte
  /-- The response of the operation completed last; `none` for completion only (R75). -/
  response : Option Response
  /-- The parameters of the block (00_scope.md section 6; log entry 1). -/
  cfg      : Config
  /-- The model's own counter behind the free values: every operation that is not a read advances it (log entry 7). -/
  draws    : Nat
deriving DecidableEq, Repr

/-- Why the machine stops with a fault. -/
inductive Fault where
  /-- Raised by every operation but RESET while FAILED = 1: the block is dead (R204). Safe: the spec gives it no step. -/
  | blockFailed
deriving DecidableEq, Repr

/-- Why a command has no step. -/
inductive Refusal where
  /-- Raised by exec's arm of an operation without a meaning: no arm of this model raises it. Safe. -/
  | notModelled (mnemonic : String)
  /-- Raised by the step on a reserved command (R79, R202), by name. Safe: the spec refuses it. -/
  | reservedCommand (why : Reserved)
  /-- Raised by OAMS with `k >= 40` (R180, R202). Safe: the spec refuses it. -/
  | slotIndex
  /-- Raised by the step where the configuration breaks R7 and is not admitted (93_implementation_defined.md U6).
  Safe: the spec refuses it. -/
  | configNotAdmitted
deriving DecidableEq, Repr

/-- The outcome of an operation. -/
abbrev Outcome := Host.Outcome State Fault Refusal

/-- The state right after a booted RESET that did not fail (R31, R34, R220), with the default parameters and the
image `resetImage` (log entry 11); no command is pending. -/
def State.reset : State where
  mem      := resetMem defaultConfig true
  divider  := resetDivider defaultConfig true
  keys     := 0x00
  bc       := bcStart .romOnly resetImage
  failed   := false
  inbox    := []
  port     := .reset
  romIn    := resetImage
  response := none
  cfg      := defaultConfig
  draws    := 0

end Sys2Proof.Machine
end

