-- ==== Sys2Proof/Machine/Ops.lean ====
section
/-! DEFINITION. The named operations over the state: raw reads and writes of MEM, the named registers, the completion of
an operation, and the two things that happen to a command before and after it runs. The block takes no exception
(60_exceptions.md rules R209, R210): its one fault is the construction failure of RESET (`failReset`). -/

namespace Sys2Proof.Machine

/-- `MEM[a]`: a raw read, no decode chain (00_scope.md 7.2). -/
def State.load (s : State) (a : Addr) : Byte := Memory.read s.mem a.toNat

/-- `MEM[a] <- v`: a raw write, no decode chain, no mirroring. -/
def State.store (s : State) (a : Addr) (v : Byte) : State := { s with mem := Memory.write s.mem a.toNat v }

/-- `DIVIDER <- d`. -/
def State.setDivider (s : State) (d : Word) : State := { s with divider := d }

/-- `KEYS <- k`. -/
def State.setKeys (s : State) (k : Byte) : State := { s with keys := k }

/-- The BankController's state after one of its writes. -/
def State.setBc (s : State) (b : BankController) : State := { s with bc := b }

/-- The end of a read: the response is presented and nothing else changes (R51, R107). -/
def State.respond (s : State) (r : Response) : State := { s with response := some r }

/-- The end of an operation without a response (R75). The model's counter advances, so that a value left free may
differ from the one before the operation (log entry 7). -/
def State.complete (s : State) : State := { s with response := none, draws := s.draws + 1 }

/-- An operation other than RESET: while FAILED = 1 it has no step (R204). -/
def State.serve (s : State) (t : State) : Outcome := if s.failed then .fault .blockFailed else .next t

/-- The state after a RESET that raised ConstructionFailure: FAILED is 1 and the rest is unspecified (R222). -/
def State.failReset (s : State) : State :=
  { s with
    mem := Memory.ofCells (Config.freeCells s.draws)
    divider := Config.freeDivider s.draws
    keys := Config.freeKeys s.draws
    bc := Config.freeBank s.draws
    failed := true }

/-- The block accepts a command: it leaves the inbox, and its port and sideband are the current ones (R71). -/
def State.accept (s : State) (c : Command) (rest : List Command) : State :=
  { s with inbox := rest, port := c.port, romIn := c.rom }

/-- A master presents a command that is served next. The sideband carries the image the block was built from, so that
a RESET among such commands finds a cartridge. -/
def State.present (s : State) (w : CommandWord) : State :=
  { s with inbox := { port := .cpu, word := w, rom := s.bc.rom } :: s.inbox }

end Sys2Proof.Machine
end

