-- ==== Sys2Proof/Machine/Operands.lean ====
section
/-! DEFINITION. The values the operations compose from their operands and the state: the input register's read value
(46_input.md), its masked write (R123), the packed tile row and the tile addresses (45_display_port.md), and the
addresses of sprite slots and DMA pages. -/

namespace Sys2Proof.Machine

/-- The key lines of the direction group, active low: `(~K[3:0]) & 0x0F` (R193). -/
def dirLines (k : Byte) : BitVec 4 := ~~~ (k.extractLsb' 0 4)

/-- The key lines of the button group, active low: `(~K[7:4]) & 0x0F` (R193). -/
def btnLines (k : Byte) : BitVec 4 := ~~~ (k.extractLsb' 4 4)

/-- The low nibble of P1 with both groups selected, by P1_BOTH (R194); `draw` is the free value of `any`. -/
def bothLines (p : P1Both) (draw : BitVec 4) (k : Byte) : BitVec 4 :=
  match p with
  | .dirFirst => dirLines k
  | .btnFirst => btnLines k
  | .andBoth  => dirLines k &&& btnLines k
  | .any      => draw

/-- The low nibble of P1Compose (R191 to R194): bit 4 clear selects the direction group, bit 5 clear the buttons. -/
def p1Lines (p : P1Both) (draw : BitVec 4) (s k : Byte) : BitVec 4 :=
  match s.getLsbD 4, s.getLsbD 5 with
  | true,  true  => 0xF
  | false, true  => dirLines k
  | true,  false => btnLines k
  | false, false => bothLines p draw k

/-- `P1Compose(s, K)` (R191): the stored upper nibble with the composed lines below it. -/
def p1Compose (p : P1Both) (draw : BitVec 4) (s k : Byte) : Byte :=
  (s &&& 0xF0) ||| (p1Lines p draw s k).setWidth 8

/-- What RD returns at P1_ADDR (R103). DESIGN CHOICE (log entry 7): the nibble that R194 leaves open under P1_BOTH =
`any` is a free function of the model's counter, the stored byte and KEYS. -/
def State.readP1 (s : State) : Byte :=
  p1Compose s.cfg.p1Both (Config.freeNibble s.draws (s.load s.cfg.p1Addr) s.keys) (s.load s.cfg.p1Addr) s.keys

/-- `MEM[P1_ADDR] <- (MEM[P1_ADDR] & 0xCF) | (v & 0x30)` (R123). -/
def State.writeP1 (s : State) (v : Byte) : State :=
  s.store s.cfg.p1Addr ((s.load s.cfg.p1Addr &&& 0xCF) ||| (v &&& 0x30))

/-- The first byte of sprite slot `k` (R44, R180). -/
def slotAddr (k : BitVec 6) : Addr := oamLo + 4 * k.setWidth 16

/-- Pixel `j` of a tile row: its low bit from `lo`, its high bit from `hi`, the leftmost pixel in bit 7 (R182). -/
def pixel (lo hi : Byte) (j : Nat) : BitVec 16 :=
  ((if lo.getLsbD (7 - j) then 1 else 0) <<< (2 * j)) ||| ((if hi.getLsbD (7 - j) then 1 else 0) <<< (2 * j + 1))

/-- `Pack(lo, hi)` (R182): the eight pixels, pixel `j` in bits 2j+1:2j. -/
def pack (lo hi : Byte) : BitVec 16 := (List.range 8).foldl (fun r j => r ||| pixel lo hi j) 0

/-- Row `r` of the tile whose first byte is at `a`, read raw (R181). -/
def State.tileRow (s : State) (a : Addr) (r : Nat) : BitVec 16 :=
  pack (s.load (a + BitVec.ofNat 16 (2 * r))) (s.load (a + BitVec.ofNat 16 (2 * r + 1)))

/-- The eight packed rows of a tile as the 128-bit response, row `r` in bits 16r+15..16r (R75, R181). -/
def State.tileRows (s : State) (a : Addr) : BitVec 128 :=
  (List.range 8).foldl (fun x r => x ||| (s.tileRow a r).setWidth 128 <<< (16 * r)) 0

/-- The data address of the tile that the map byte at `a` names (R183): `TILE_BASE_U + 16*idx`, or
`TILE_BASE_S + 16*sext_16(idx)`, modulo 65536. -/
def State.tileOfMap (s : State) (a : Addr) (m : TileMode) : Addr :=
  match m with
  | .unsignedBase => s.cfg.tileBaseU + 16 * (s.load a).setWidth 16
  | .signedIndex  => s.cfg.tileBaseS + 16 * (s.load a).signExtend 16

/-- `page << 8` (R171). -/
def pageAddr (page : Byte) : Addr := page.setWidth 16 <<< 8

end Sys2Proof.Machine
end

