-- ==== Sys2Proof/Machine/Display.lean ====
section
/-! DEFINITION. The meanings of the display port's conveniences (45_display_port.md): raw reads, never blocked, never
composed (R184). -/

namespace Sys2Proof.Machine

/-- The four descriptor bytes of sprite slot `k`, byte `i` in bits 8i+7..8i (R180). -/
def State.slotBytes (s : State) (k : BitVec 6) : BitVec 32 :=
  s.load (slotAddr k + 3) ++ s.load (slotAddr k + 2) ++ s.load (slotAddr k + 1) ++ s.load (slotAddr k)

/-- `OAMS(k)`: refused for `k >= 40` (R180, R202). -/
def State.oams (s : State) (k : BitVec 6) : Outcome :=
  if k.toNat < 40 then s.serve (s.respond (.slot (s.slotBytes k))) else .refused .slotIndex

/-- OAMS.0 (R180). -/
def execOams0 (k : BitVec 6) (s : State) : Outcome := s.oams k

/-- OAMS.1 (R180). -/
def execOams1 (k : BitVec 6) (s : State) : Outcome := s.oams k

/-- RDT (R181). -/
def execRdt (a : Addr) (s : State) : Outcome := s.serve (s.respond (.tile (s.tileRows a)))

/-- RDBT (R183). -/
def execRdbt (a : Addr) (m : TileMode) (s : State) : Outcome :=
  s.serve (s.respond (.tile (s.tileRows (s.tileOfMap a m))))

end Sys2Proof.Machine
end

