-- ==== Sys2Proof/Machine/Flags.lean ====
section
/-! DEFINITION. The status bits of the block (10_state.md rule R28): the display mode STAT[1:0] and the read blocking it
causes, the timer's fields of TAC, the divider's falling edge, and the two request bits of IF. -/

namespace Sys2Proof.Machine

/-- IF_TIMER, the timer-overflow request bit (R20). -/
def ifTimer : Byte := 0x04

/-- IF_INPUT, the input request bit (R20). -/
def ifInput : Byte := 0x10

/-- `MEM[IF_ADDR] <- MEM[IF_ADDR] | mask`: a request is raised, the other bits keep their value (R145, R195, R205). -/
def State.raise (s : State) (mask : Byte) : State := s.store s.cfg.ifAddr (s.load s.cfg.ifAddr ||| mask)

/-- The display mode, STAT[1:0] (R22). -/
def State.mode (s : State) : BitVec 2 := (s.load s.cfg.statAddr).extractLsb' 0 2

/-- `MEM[STAT_ADDR] <- MEM[STAT_ADDR] & 0xFC`: the mode becomes 0 (R125). -/
def State.clearMode (s : State) : State := s.store s.cfg.statAddr (s.load s.cfg.statAddr &&& 0xFC)

/-- A read in the sprite table: 0xFF in modes 2 and 3, else the stored byte (R105, R106). -/
def State.readOam (s : State) (a : Addr) : Byte := if s.mode = 2 ∨ s.mode = 3 then 0xFF else s.load a

/-- A read in tile memory: 0xFF in mode 3, else the stored byte (R105, R106). -/
def State.readTile (s : State) (a : Addr) : Byte := if s.mode = 3 then 0xFF else s.load a

/-- The timer's enable bit, TAC[2] (R19). -/
def tacEnabled (tac : Byte) : Bool := tac.getLsbD 2

/-- TAC_BIT: the divider bit that the clock select TAC[1:0] watches (R142). -/
def tacBit (tac : Byte) : Nat :=
  match tac.toNat % 4 with
  | 0 => 9
  | 1 => 3
  | 2 => 5
  | _ => 7

/-- The falling edge of bit `p` between two values of DIVIDER (R144). -/
def fallingEdge (p : Nat) (before after : Word) : Bool := before.getLsbD p && !after.getLsbD p

end Sys2Proof.Machine
end

