-- ==== Sys2Proof/Machine/Input.lean ====
section
/-! DEFINITION. The meaning of KEY (46_input.md rule R195). -/

namespace Sys2Proof.Machine

/-- The keys released before and pressed now (R195). -/
def newlyPressed (old new : Byte) : Byte := new &&& ~~~ old

/-- `KEY(k)`: KEYS is replaced; a press raises the input request, whatever P1 selects (R195, R196). -/
def State.updateKeys (s : State) (k : Byte) : State :=
  if newlyPressed s.keys k = 0 then s.setKeys k else (s.setKeys k).raise ifInput

/-- KEY (R195). -/
def execKey (k : Byte) (s : State) : Outcome := s.serve (s.updateKeys k).complete

end Sys2Proof.Machine
end

