-- ==== Sys2Proof/Machine/Bus.lean ====
section
/-! DEFINITION. The two decode chains as the rules give them (40_bus_read.md rule R100, 41_bus_write.md rule R120) and
the DMA engine that a write runs (44_dma.md). -/

namespace Sys2Proof.Machine

/-- `RD(a)`: the read chain, first match wins (R77, R100). It writes no state (R107). -/
def State.busRead (s : State) (a : Addr) : Byte :=
  if inRom a then bcReadRom s.bc a
  else if inXram a then bcReadRam s.bc a
  else if a = s.cfg.p1Addr then s.readP1
  else if a = s.cfg.divAddr then s.divider.extractLsb' 8 8
  else if inOam a ∧ (s.mode = 2 ∨ s.mode = 3) then 0xFF
  else if inTile s.cfg a ∧ s.mode = 3 then 0xFF
  else s.load a

/-- `DmaSource(a)` (R172). DESIGN CHOICE (log entry 7): where it reads P1 with both groups selected and P1_BOTH = `any`
(page 0xFF, R176), R194 leaves the nibble open; the model draws it with the counter as the operation found it, so the
copied nibble is the one an RD just before the WR or WRW responds. -/
def State.dmaSource (s : State) (a : Addr) : Byte :=
  match s.cfg.dmaSrcPath with
  | .bus => s.busRead a
  | .raw => s.load a

/-- The copy of byte `i` of a DMA from the page that begins at `src`: a raw store into the sprite table (R171, R173). -/
def dmaByte (src : Addr) (s : State) (i : Nat) : State :=
  s.store (oamLo + BitVec.ofNat 16 i) (s.dmaSource (src + BitVec.ofNat 16 i))

/-- `Dma(page)`: 160 bytes in ascending order, to completion (R170, R171). -/
def State.dma (s : State) (page : Byte) : State := (List.range dmaLen).foldl (dmaByte (pageAddr page)) s

/-- A WR at DMA_ADDR: the copy, then the store of the page if DMA_REG_STORE (R126, R174). -/
def State.writeDma (s : State) (page : Byte) : State :=
  if s.cfg.dmaRegStore then (s.dma page).store dmaAddr page else s.dma page

/-- The default store with the mirror of working RAM to echo RAM (R127, R128). -/
def State.storeMirror (s : State) (a : Addr) (v : Byte) : State := (s.store a v).store (a + echoOff) v

/-- The default store with the mirror of echo RAM to working RAM (R127, R129). -/
def State.storeEcho (s : State) (a : Addr) (v : Byte) : State := (s.store a v).store (a - echoOff) v

/-- The default arm: the store and the mirror its address asks for (R127 to R129). -/
def State.storeDefault (s : State) (a : Addr) (v : Byte) : State :=
  if inMirror a then s.storeMirror a v
  else if inEcho a then s.storeEcho a v
  else s.store a v

/-- `WR(a, v)`: the write chain, first match wins, but arm 5 continues into the default store (R78, R120). -/
def State.busWrite (s : State) (a : Addr) (v : Byte) : State :=
  if inRom a then s.setBc (bcWriteRom s.bc a v)
  else if inXram a then s.setBc (bcWriteRam s.bc a v)
  else if a = s.cfg.p1Addr then s.writeP1 v
  else if a = s.cfg.divAddr then s.setDivider 0x0000
  else if a = s.cfg.lcdcAddr ∧ v.getLsbD 7 = false then s.clearMode.storeDefault a v
  else if a = dmaAddr then s.writeDma v
  else s.storeDefault a v

end Sys2Proof.Machine
end

