-- ==== Sys2Proof/Machine/Read.lean ====
section
/-! DEFINITION. The meanings of the read operations (40_bus_read.md): the arms of RD, RDW and URD. None changes state
(R51, R107); each presents a response. -/

namespace Sys2Proof.Machine

/-- RD.ROM (R101). -/
def execRdRom (a : Addr) (s : State) : Outcome := s.serve (s.respond (.byte (bcReadRom s.bc a)))

/-- RD.XRAM (R102). -/
def execRdXram (a : Addr) (s : State) : Outcome := s.serve (s.respond (.byte (bcReadRam s.bc a)))

/-- RD.P1 (R103). -/
def execRdP1 (s : State) : Outcome := s.serve (s.respond (.byte s.readP1))

/-- RD.DIV (R104): `DIVIDER[15:8]`. -/
def execRdDiv (s : State) : Outcome := s.serve (s.respond (.byte (s.divider.extractLsb' 8 8)))

/-- RD.OAM.0 (R105, R106). -/
def execRdOam0 (a : Addr) (s : State) : Outcome := s.serve (s.respond (.byte (s.readOam a)))

/-- RD.OAM.1 (R105, R106). -/
def execRdOam1 (a : Addr) (s : State) : Outcome := s.serve (s.respond (.byte (s.readOam a)))

/-- RD.TILE (R105, R106). -/
def execRdTile (a : Addr) (s : State) : Outcome := s.serve (s.respond (.byte (s.readTile a)))

/-- RD.MEM (R106). -/
def execRdMem (a : Addr) (s : State) : Outcome := s.serve (s.respond (.byte (s.load a)))

/-- RDW (R108): `{RD(a +16 1), RD(a)}`. -/
def execRdw (a : Addr) (s : State) : Outcome := s.serve (s.respond (.word (s.busRead (a + 1) ++ s.busRead a)))

/-- URD (R109). -/
def execUrd (a : Addr) (s : State) : Outcome := s.serve (s.respond (.byte (s.load a)))

end Sys2Proof.Machine
end

