-- ==== Sys2Proof/Machine/System.lean ====
section
/-! DEFINITION. The meaning of RESET (70_reset_and_hazards.md rules R220 to R226). It is served with FAILED = 0 or 1,
and its outcome shows in FAILED. -/

namespace Sys2Proof.Machine

/-- `RESET(rom, b)`: all state rebuilt from the image and the boot flag, or FAILED = 1 (R220, R222, R226). -/
def State.construct (s : State) (rom : List Byte) (b : Bool) : State :=
  match bcNew s.cfg rom with
  | .error _ => s.failReset
  | .ok bc =>
    { s with mem := resetMem s.cfg b, divider := resetDivider s.cfg b, keys := 0x00, bc := bc, failed := false }

/-- RESET (R220). -/
def execReset (b : Bool) (s : State) : Outcome := .next (s.construct s.romIn b).complete

end Sys2Proof.Machine
end

