-- ==== Sys2Proof/Machine/Timer.lean ====
section
/-! DEFINITION. The timer and the meaning of TICK (42_timer.md), by the per-unit iteration that R140 defines it with. -/

namespace Sys2Proof.Machine

/-- One counted edge: TIMA + 1, or the reload from TMA with the timer request raised (R145). -/
def State.countEdge (s : State) : State :=
  if s.load s.cfg.timaAddr = 0xFF then
    (s.store s.cfg.timaAddr (s.load s.cfg.tmaAddr)).raise ifTimer
  else s.store s.cfg.timaAddr (s.load s.cfg.timaAddr + 1)

/-- One unit of an enabled timer watching bit `p`: DIVIDER + 1, then the edge test (R143, R144). -/
def State.tickUnit (p : Nat) (s : State) : State :=
  let t := s.setDivider (s.divider + 1)
  if fallingEdge p s.divider t.divider then t.countEdge else t

/-- `n` units of an enabled timer, one at a time (R140, R143). -/
def State.tickUnits (p : Nat) : Nat → State → State
  | 0, s => s
  | n + 1, s => State.tickUnits p n (State.tickUnit p s)

/-- `TICK(n)` (R140): TAC is read once (R148); a disabled timer moves DIVIDER only (R141). -/
def State.tick (s : State) (n : Nat) : State :=
  if tacEnabled (s.load s.cfg.tacAddr) then State.tickUnits (tacBit (s.load s.cfg.tacAddr)) n s
  else s.setDivider (s.divider + BitVec.ofNat 16 n)

/-- TICK (R140). -/
def execTick (n : Word) (s : State) : Outcome := s.serve (s.tick n.toNat).complete

end Sys2Proof.Machine
end

