-- ==== Sys2Proof/Machine/Write.lean ====
section
/-! DEFINITION. The meanings of the write operations (41_bus_write.md): the arms of WR, and WRW. -/

namespace Sys2Proof.Machine

/-- WR.ROM (R121). -/
def execWrRom (a : Addr) (v : Byte) (s : State) : Outcome := s.serve (s.setBc (bcWriteRom s.bc a v)).complete

/-- WR.XRAM (R122). -/
def execWrXram (a : Addr) (v : Byte) (s : State) : Outcome := s.serve (s.setBc (bcWriteRam s.bc a v)).complete

/-- WR.P1 (R123). -/
def execWrP1 (v : Byte) (s : State) : Outcome := s.serve (s.writeP1 v).complete

/-- WR.DIV (R124): any value clears DIVIDER; MEM, TIMA and IF are not touched. -/
def execWrDiv (_v : Byte) (s : State) : Outcome := s.serve (s.setDivider 0x0000).complete

/-- WR.LCDC.OFF (R125): the mode is cleared and the value is stored. -/
def execWrLcdcOff (v : Byte) (s : State) : Outcome := s.serve (s.clearMode.store s.cfg.lcdcAddr v).complete

/-- WR.DMA (R126, R170 to R174). -/
def execWrDma (v : Byte) (s : State) : Outcome := s.serve (s.writeDma v).complete

/-- WR.MIR.0 (R127, R128). -/
def execWrMir0 (a : Addr) (v : Byte) (s : State) : Outcome := s.serve (s.storeMirror a v).complete

/-- WR.MIR.1 (R127, R128). -/
def execWrMir1 (a : Addr) (v : Byte) (s : State) : Outcome := s.serve (s.storeMirror a v).complete

/-- WR.MIR.2 (R127, R128). -/
def execWrMir2 (a : Addr) (v : Byte) (s : State) : Outcome := s.serve (s.storeMirror a v).complete

/-- WR.MIR.3 (R127, R128). -/
def execWrMir3 (a : Addr) (v : Byte) (s : State) : Outcome := s.serve (s.storeMirror a v).complete

/-- WR.ECHO.0 (R127, R129). -/
def execWrEcho0 (a : Addr) (v : Byte) (s : State) : Outcome := s.serve (s.storeEcho a v).complete

/-- WR.ECHO.1 (R127, R129). -/
def execWrEcho1 (a : Addr) (v : Byte) (s : State) : Outcome := s.serve (s.storeEcho a v).complete

/-- WR.ECHO.2 (R127, R129). -/
def execWrEcho2 (a : Addr) (v : Byte) (s : State) : Outcome := s.serve (s.storeEcho a v).complete

/-- WR.ECHO.3 (R127, R129). -/
def execWrEcho3 (a : Addr) (v : Byte) (s : State) : Outcome := s.serve (s.storeEcho a v).complete

/-- WR.MEM (R127, R130, R131): a plain store, in every display mode. -/
def execWrMem (a : Addr) (v : Byte) (s : State) : Outcome := s.serve (s.store a v).complete

/-- WRW (R133): the low byte's whole write at `a`, then the high byte's at `a +16 1`. -/
def execWrw (a : Addr) (w : Word) (s : State) : Outcome :=
  s.serve ((s.busWrite a (w.extractLsb' 0 8)).busWrite (a + 1) (w.extractLsb' 8 8)).complete

end Sys2Proof.Machine
end

