-- ==== Sys2Proof/Machine/Dispatch.lean ====
section
/-! DEFINITION. One arm per constructor of Instr: the meaning of each operation. -/

namespace Sys2Proof.Machine

def exec (i : Instr) (s : State) : Host.Outcome State Fault Refusal :=
  match i with
  | .rdRom a => Sys2Proof.Machine.execRdRom a s
  | .rdXram a => Sys2Proof.Machine.execRdXram a s
  | .rdP1 => Sys2Proof.Machine.execRdP1 s
  | .rdDiv => Sys2Proof.Machine.execRdDiv s
  | .rdOam0 a => Sys2Proof.Machine.execRdOam0 a s
  | .rdOam1 a => Sys2Proof.Machine.execRdOam1 a s
  | .rdTile a => Sys2Proof.Machine.execRdTile a s
  | .rdMem a => Sys2Proof.Machine.execRdMem a s
  | .wrRom a v => Sys2Proof.Machine.execWrRom a v s
  | .wrXram a v => Sys2Proof.Machine.execWrXram a v s
  | .wrP1 v => Sys2Proof.Machine.execWrP1 v s
  | .wrDiv v => Sys2Proof.Machine.execWrDiv v s
  | .wrLcdcOff v => Sys2Proof.Machine.execWrLcdcOff v s
  | .wrDma v => Sys2Proof.Machine.execWrDma v s
  | .wrMir0 a v => Sys2Proof.Machine.execWrMir0 a v s
  | .wrMir1 a v => Sys2Proof.Machine.execWrMir1 a v s
  | .wrMir2 a v => Sys2Proof.Machine.execWrMir2 a v s
  | .wrMir3 a v => Sys2Proof.Machine.execWrMir3 a v s
  | .wrEcho0 a v => Sys2Proof.Machine.execWrEcho0 a v s
  | .wrEcho1 a v => Sys2Proof.Machine.execWrEcho1 a v s
  | .wrEcho2 a v => Sys2Proof.Machine.execWrEcho2 a v s
  | .wrEcho3 a v => Sys2Proof.Machine.execWrEcho3 a v s
  | .wrMem a v => Sys2Proof.Machine.execWrMem a v s
  | .rdw a => Sys2Proof.Machine.execRdw a s
  | .wrw a w => Sys2Proof.Machine.execWrw a w s
  | .urd a => Sys2Proof.Machine.execUrd a s
  | .tick n => Sys2Proof.Machine.execTick n s
  | .oams0 k => Sys2Proof.Machine.execOams0 k s
  | .oams1 k => Sys2Proof.Machine.execOams1 k s
  | .rdt a => Sys2Proof.Machine.execRdt a s
  | .rdbt a m => Sys2Proof.Machine.execRdbt a m s
  | .key k => Sys2Proof.Machine.execKey k s
  | .reset b => Sys2Proof.Machine.execReset b s

end Sys2Proof.Machine
end

