-- ==== Sys2Proof/Machine/Step.lean ====
section
/-! DEFINITION. One step: the block accepts the next command and performs the whole operation (30_encoding.md rule
R71). With no command it does nothing (10_state.md rule R30). -/

namespace Sys2Proof.Machine

/-- One step of the block. -/
def step (s : State) : Host.Outcome State Fault Refusal :=
  if admitted s.cfg then
    match s.inbox with
    | [] => .next s
    | c :: rest =>
      match decode s.cfg c.word with
      | .error e => .refused (.reservedCommand e)
      | .ok i => exec i (s.accept c rest)
  else .refused .configNotAdmitted

/-- The state with an opcode-table row's word presented as the next command. -/
def State.withFetchWord (s : State) (nbits w : Nat) : State := s.present (BitVec.ofNat 36 (w % 2 ^ nbits))

end Sys2Proof.Machine
end

