-- ==== Sys2Proof/Machine/Script.lean ====
section
/-! DEFINITION. The script's operations as command words: the eleven mnemonics of 30_encoding.md rule R81 with their
operands in the order of R73, and the pseudo-operations of R82 by their expansions. -/

namespace Sys2Proof.Machine

/-- `RD a`. -/
def scriptRd (a : Addr) : CommandWord := encodeRd a

/-- `WR a, v`. -/
def scriptWr (a : Addr) (v : Byte) : CommandWord := encodeWr a v

/-- `RDW a`. -/
def scriptRdw (a : Addr) : CommandWord := command 0x2 a 0

/-- `WRW a, w`. -/
def scriptWrw (a : Addr) (w : Word) : CommandWord := command 0x3 a w

/-- `URD a`. -/
def scriptUrd (a : Addr) : CommandWord := command 0x4 a 0

/-- `TICK n`. -/
def scriptTick (n : Word) : CommandWord := command 0x5 n 0

/-- `OAMS k`. -/
def scriptOams (k : BitVec 6) : CommandWord := command 0x6 (k.setWidth 16) 0

/-- `RDT a`. -/
def scriptRdt (a : Addr) : CommandWord := command 0x7 a 0

/-- `RDBT a, m`. -/
def scriptRdbt (a : Addr) (m : TileMode) : CommandWord := command 0x8 a (modeField m)

/-- `KEY k`. -/
def scriptKey (k : Byte) : CommandWord := command 0x9 (k.setWidth 16) 0

/-- `RESET b`; the image stands on the sideband. -/
def scriptReset (b : Bool) : CommandWord := command 0xA 0 (flagField b)

/-- `DMA page`: start a DMA (R82). -/
def scriptDma (page : Byte) : CommandWord := scriptWr dmaAddr page

/-- `DIVRST`: clear the divider (R82). -/
def scriptDivrst (c : Config) : CommandWord := scriptWr c.divAddr 0x00

/-- `MODE m`: the display master publishes its mode; `x` is the response of `URD STAT_ADDR` just before (R82, R235). -/
def scriptMode (c : Config) (x : Byte) (m : BitVec 2) : CommandWord :=
  scriptWr c.statAddr ((x &&& 0xFC) ||| m.setWidth 8)

/-- `PRESS mask`: the keys of `mask` are pressed; `keys` is KEYS as the input driver knows it (R82). -/
def scriptPress (keys mask : Byte) : CommandWord := scriptKey (keys ||| mask)

/-- `RELEASE mask`: the keys of `mask` are released (R82). -/
def scriptRelease (keys mask : Byte) : CommandWord := scriptKey (keys &&& ~~~ mask)

/-- `SELDIR`: select the direction group (R82). -/
def scriptSeldir (c : Config) : CommandWord := scriptWr c.p1Addr 0x20

/-- `SELBTN`: select the button group (R82). -/
def scriptSelbtn (c : Config) : CommandWord := scriptWr c.p1Addr 0x10

/-- `SELNONE`: select neither group (R82). -/
def scriptSelnone (c : Config) : CommandWord := scriptWr c.p1Addr 0x30

end Sys2Proof.Machine
end

