-- ==== Sys2Proof/Safety.lean ====
section
/-! DEFINITION. What counts as a safe state of the block, and the terms the claims use: the invariant, the five state
elements, what a store leaves alone, and which operations read. -/

namespace Sys2Proof.Machine

/-- The echo invariant of the store: `MEM[a] = MEM[a +16 0x2000]` for every `a` in [0xC000,0xDDFF] (R27). -/
def State.echoes (s : State) : Prop := ∀ a, inMirror a → s.load a = s.load (a + 0x2000)

/-- The invariant of the machine: the configuration is admitted (R7), MEM is in its canonical form, and a block that is
not failed keeps the echo invariant (R27). -/
structure State.Inv (s : State) : Prop where
  admitted : admitted s.cfg = true
  wf       : Memory.wf s.mem
  echoes   : s.failed = false → s.echoes

/-- A step is safe when the block takes it and the invariant holds after it. -/
def State.safeStep (s : State) : Prop := ∃ t, step s = .next t ∧ t.Inv

/-- The five state elements of the block are the same (10_state.md section 1). -/
structure State.sameBlock (s t : State) : Prop where
  mem     : t.mem = s.mem
  divider : t.divider = s.divider
  keys    : t.keys = s.keys
  bc      : t.bc = s.bc
  failed  : t.failed = s.failed

/-- What the ports hold besides the response, and the parameters, are the same. -/
structure State.samePorts (s t : State) : Prop where
  inbox : t.inbox = s.inbox
  port  : t.port = s.port
  romIn : t.romIn = s.romIn
  cfg   : t.cfg = s.cfg

/-- `t` is `s` after an operation without a response that may have written bytes of MEM and nothing else. -/
structure State.onlyMemory (s t : State) : Prop where
  divider  : t.divider = s.divider
  keys     : t.keys = s.keys
  bc       : t.bc = s.bc
  failed   : t.failed = s.failed
  response : t.response = none
  ports    : s.samePorts t

/-- `t` is `s` after an operation without a response that has written no state element: only the response and the
model's own counter may differ. -/
structure State.onlyDone (s t : State) : Prop where
  block    : s.sameBlock t
  response : t.response = none
  ports    : s.samePorts t

/-- What an operation is to the block. -/
inductive OpKind where
  | read
  | write
  | time
  | input
  | reset
deriving DecidableEq, Repr

/-- The kind of an operation: the arms of RD, RDW, URD, OAMS, RDT and RDBT read (R51); the arms of WR, and WRW, write;
then TICK, KEY and RESET. -/
def opKind : Instr → OpKind
  | .rdRom _ | .rdXram _ | .rdP1 | .rdDiv | .rdOam0 _ | .rdOam1 _ | .rdTile _ | .rdMem _ => .read
  | .rdw _ | .urd _ | .oams0 _ | .oams1 _ | .rdt _ | .rdbt _ _ => .read
  | .wrRom _ _ | .wrXram _ _ | .wrP1 _ | .wrDiv _ | .wrLcdcOff _ | .wrDma _ => .write
  | .wrMir0 _ _ | .wrMir1 _ _ | .wrMir2 _ _ | .wrMir3 _ _ => .write
  | .wrEcho0 _ _ | .wrEcho1 _ _ | .wrEcho2 _ _ | .wrEcho3 _ _ | .wrMem _ _ | .wrw _ _ => .write
  | .tick _ => .time
  | .key _ => .input
  | .reset _ => .reset

/-- RESET, the only operation that is served while FAILED = 1 (R204). -/
def isReset (i : Instr) : Bool := opKind i == .reset

/-- The operations that read (R51). -/
def isRead (i : Instr) : Bool := opKind i == .read

/-- The operations of a bus write. -/
def isWrite (i : Instr) : Bool := opKind i == .write

end Sys2Proof.Machine
end

