-- ==== Sys2Proof/Certificates/Slice0/Obligations.lean ====
section
/-! DEFINITION. The statements for the provers, from the numbered rules of spec/. A statement about an outcome names the
next state's every field: by a record update of the state before, or field by field with `onlyMemory` (nothing but
bytes of MEM and the response), `onlyDone` (nothing but the response). `draws` is the model's own counter (log entry
7): a claim holds for every value of it. "Admitted" is R7, with the places of the logo and of the boot table. -/

open Sys2Proof Sys2Proof.Machine

/-! ### Encoding -/

/-- R81 (the spec's decisions D1, D28): the script lines are the command words of its table, and each decodes to the
operation it stands for (default configuration). -/
def Obligations.ScriptLinesDecode : Prop :=
  (scriptRd 0xC000 = 0x0C0000000 ∧ decode defaultConfig 0x0C0000000 = .ok (.rdMem 0xC000)) ∧
  (scriptWr 0xFF46 0xC0 = 0x1FF4600C0 ∧ decode defaultConfig 0x1FF4600C0 = .ok (.wrDma 0xC0)) ∧
  (scriptRdw 0xFFFF = 0x2FFFF0000 ∧ decode defaultConfig 0x2FFFF0000 = .ok (.rdw 0xFFFF)) ∧
  (scriptWrw 0xC000 0x1234 = 0x3C0001234 ∧ decode defaultConfig 0x3C0001234 = .ok (.wrw 0xC000 0x1234)) ∧
  (scriptUrd 0x0104 = 0x401040000 ∧ decode defaultConfig 0x401040000 = .ok (.urd 0x0104)) ∧
  (scriptTick 1024 = 0x504000000 ∧ decode defaultConfig 0x504000000 = .ok (.tick 1024)) ∧
  (scriptOams 39 = 0x600270000 ∧ decode defaultConfig 0x600270000 = .ok (.oams1 39)) ∧
  (scriptRdt 0x8000 = 0x780000000 ∧ decode defaultConfig 0x780000000 = .ok (.rdt 0x8000)) ∧
  (scriptRdbt 0x9800 .signedIndex = 0x898000001 ∧
    decode defaultConfig 0x898000001 = .ok (.rdbt 0x9800 .signedIndex)) ∧
  (scriptKey 0x11 = 0x900110000 ∧ decode defaultConfig 0x900110000 = .ok (.key 0x11)) ∧
  (scriptReset true = 0xA00000001 ∧ decode defaultConfig 0xA00000001 = .ok (.reset true))

/-- Decode and encode agree (R74 and R76 are the spec's decision D1): every well-formed operation decodes from its
command word, with every operand at every value its row admits, under every admitted configuration. -/
def Obligations.DecodeOfEncode : Prop :=
  ∀ (c : Config) (i : Instr), admitted c = true → i.wf c = true → decode c (encode c i) = .ok i

/-- The other direction (R74 and R76 are the spec's decision D1): a word that decodes is the command word of the
operation it decodes to, and that operation is well formed; no two words mean the same and no bit of a word is
ignored. -/
def Obligations.EncodeOfDecode : Prop :=
  ∀ (c : Config) (w : CommandWord) (i : Instr),
    admitted c = true → decode c w = .ok i → encode c i = w ∧ i.wf c = true

/-- R79 (the spec's decisions D1, D29): the reserved encodings are exactly op codes 0xB to 0xF, commands with a
non-zero unused bit (the bits R76 lists) and OAMS with `k >= 40`; every other word is an operation. -/
def Obligations.ReservedEncodings : Prop :=
  ∀ (c : Config) (w : CommandWord),
    let op := (w.extractLsb' 32 4).toNat
    let a := w.extractLsb' 16 16
    let d := w.extractLsb' 0 16
    (∃ i, decode c w = .ok i) ↔
      op ≤ 0xA ∧
      (op ∈ [0x0, 0x2, 0x4, 0x5, 0x6, 0x7, 0x9] → d = 0) ∧
      (op = 0x1 → d.extractLsb' 8 8 = 0) ∧
      (op ∈ [0x8, 0xA] → d.extractLsb' 1 15 = 0) ∧
      (op = 0x6 → a.extractLsb' 6 10 = 0 ∧ (a.extractLsb' 0 6).toNat < 40) ∧
      (op = 0x9 → a.extractLsb' 8 8 = 0) ∧
      (op = 0xA → a = 0)

/-! ### The step -/

/-- R71 (the spec's decision D2; the inbox is the model's, log entry 3): a step accepts the first command of the inbox
and runs the operation it decodes to; the command's port and sideband become the current ones. -/
def Obligations.StepRunsDecodedCommand : Prop :=
  ∀ (s : State) (c : Command) (rest : List Command) (i : Instr),
    admitted s.cfg = true → s.inbox = c :: rest → decode s.cfg c.word = .ok i →
    step s = exec i { s with inbox := rest, port := c.port, romIn := c.rom }

/-- R30 (the spec's decision D26; an idle step is the model's choice, log entry 12): with no command the block does
nothing. -/
def Obligations.IdleStepChangesNothing : Prop :=
  ∀ s : State, admitted s.cfg = true → s.inbox = [] → step s = .next s

/-- R7, the spec's own inference, and 93_implementation_defined.md U6 (refusing is log entry 13): under a
configuration that is not admitted no command has a step. -/
def Obligations.UnadmittedConfigurationRefused : Prop :=
  ∀ s : State, admitted s.cfg = false → step s = .refused .configNotAdmitted

/-- R79 (the spec's decision D29; log entry 13): a step on a reserved command is refused, and says why. -/
def Obligations.ReservedCommandRefused : Prop :=
  ∀ (s : State) (c : Command) (rest : List Command),
    admitted s.cfg = true → s.inbox = c :: rest → (∀ i, decode s.cfg c.word ≠ .ok i) →
    ∃ e, decode s.cfg c.word = .error e ∧ step s = .refused (.reservedCommand e)

/-- R72 (the spec's decision D27): the block does not check which port a command arrives on; the step is the same but
for the port that its response is presented on. -/
def Obligations.PortMakesNoDifference : Prop :=
  ∀ (s : State) (c : Command) (rest : List Command) (p : Port),
    step { s with inbox := { c with port := p } :: rest } =
      match step { s with inbox := c :: rest } with
      | .next t => .next { t with port := p }
      | .fault r => .fault r
      | .refused r => .refused r

/-- R27, the spec's own inference, and the canonical form of MEM, the model's own: every step keeps the invariant,
from every state that has it. -/
def Obligations.StepKeepsInvariant : Prop :=
  ∀ s t : State, s.Inv → step s = .next t → t.Inv

/-- The invariant holds in the state after reset. -/
def Obligations.ResetStateHasInvariant : Prop := State.reset.Inv

/-- The state after reset holds the booted values of R34 (the spec's decision D22) and zeros (D20); that it is the
booted one of the two, its parameters and its ROM image are the model's choice (log entries 2, 11, 14). -/
def Obligations.ResetStateIsBooted : Prop :=
  State.reset.failed = false ∧ State.reset.keys = 0x00 ∧ State.reset.divider = 0x0000 ∧
  State.reset.bc.variant = .romOnly ∧
  ∀ a : Addr, State.reset.load a =
    if a = 0xFF00 then 0xFF else if a = 0xFF41 then 0x81 else if a = 0xFF0F then 0xE1 else 0x00

/-! ### Faults and completion -/

/-- With FAILED = 0 every well-formed operation has a next state, for any operands and state: RD, WR, RDW, WRW, URD,
TICK and KEY raise no fault (R200), OAMS, RDT and RDBT respond (R180 under the spec's decision D24, R181 and R183 under
D25), and RESET completes whether or not its construction fails, which shows in FAILED (R201, R222, D23). -/
def Obligations.AliveOperationsComplete : Prop :=
  ∀ (i : Instr) (s : State), s.failed = false → i.wf s.cfg = true → ∃ t, exec i s = .next t

/-- R204 (the spec's decision D23; the fault is log entry 6): with FAILED = 1 no operation but RESET has a step, and
RESET has one. -/
def Obligations.DeadBlockServesOnlyReset : Prop :=
  ∀ (i : Instr) (s : State), s.failed = true → i.wf s.cfg = true →
    if isReset i then ∃ t, exec i s = .next t else exec i s = .fault .blockFailed

/-- R180 (the spec's decision D24): OAMS with an index past the table is refused. -/
def Obligations.SlotPastTableRefused : Prop :=
  ∀ (k : BitVec 6) (s : State), 40 ≤ k.toNat →
    exec (.oams0 k) s = .refused .slotIndex ∧ exec (.oams1 k) s = .refused .slotIndex

/-! ### Reads -/

/-- R101 and R102: RD in the two cartridge windows responds the BankController's byte and changes no state. -/
def Obligations.WindowReadsDelegate : Prop :=
  ∀ (s : State) (a : Addr), s.failed = false →
    exec (.rdRom a) s = .next { s with response := some (.byte (bcReadRom s.bc a)) } ∧
    exec (.rdXram a) s = .next { s with response := some (.byte (bcReadRam s.bc a)) }

/-- R191 to R194 (the spec's decisions D4, D6, D17; the free nibble is log entry 7): RD of P1 responds the stored
upper nibble over the active-low key lines of the selected group, 0xF with neither selected; with both selected the
lines P1_BOTH names, and an unconstrained nibble under `any`. -/
def Obligations.P1ReadComposesKeys : Prop :=
  ∀ s : State, s.failed = false →
    let st := s.load s.cfg.p1Addr
    ∃ b : Byte, exec .rdP1 s = .next { s with response := some (.byte b) } ∧
      b.extractLsb' 4 4 = st.extractLsb' 4 4 ∧
      (st.getLsbD 4 = true → st.getLsbD 5 = true → b.extractLsb' 0 4 = 0xF) ∧
      (st.getLsbD 4 = false → st.getLsbD 5 = true → ∀ i < 4, b.getLsbD i = !s.keys.getLsbD i) ∧
      (st.getLsbD 4 = true → st.getLsbD 5 = false → ∀ i < 4, b.getLsbD i = !s.keys.getLsbD (4 + i)) ∧
      (st.getLsbD 4 = false → st.getLsbD 5 = false →
        (s.cfg.p1Both = .dirFirst → ∀ i < 4, b.getLsbD i = !s.keys.getLsbD i) ∧
        (s.cfg.p1Both = .btnFirst → ∀ i < 4, b.getLsbD i = !s.keys.getLsbD (4 + i)) ∧
        (s.cfg.p1Both = .andBoth → ∀ i < 4, b.getLsbD i = !(s.keys.getLsbD i || s.keys.getLsbD (4 + i))))

/-- R104: RD of DIV responds DIVIDER[15:8] and changes no state. -/
def Obligations.DivReadsDividerUpperByte : Prop :=
  ∀ s : State, s.failed = false →
    exec .rdDiv s = .next { s with response := some (.byte (s.divider.extractLsb' 8 8)) }

/-- R105 (the spec's decision D13): a read of the sprite table is 0xFF in modes 2 and 3, one of tile memory is 0xFF in
mode 3, and each is the stored byte in the other modes; the mode is STAT[1:0], read raw. -/
def Obligations.DisplayModeBlocksReads : Prop :=
  ∀ (s : State) (a : Addr), s.failed = false →
    let m := (s.load s.cfg.statAddr).toNat % 4
    let oam : Byte := if m = 2 ∨ m = 3 then 0xFF else s.load a
    let tile : Byte := if m = 3 then 0xFF else s.load a
    exec (.rdOam0 a) s = .next { s with response := some (.byte oam) } ∧
    exec (.rdOam1 a) s = .next { s with response := some (.byte oam) } ∧
    exec (.rdTile a) s = .next { s with response := some (.byte tile) }

/-- R106 and R109 (the spec's decision D12): the default arm of RD and URD at any address respond the byte of MEM and
change no state. -/
def Obligations.PlainReadsReturnStoredByte : Prop :=
  ∀ (s : State) (a : Addr), s.failed = false →
    exec (.rdMem a) s = .next { s with response := some (.byte (s.load a)) } ∧
    exec (.urd a) s = .next { s with response := some (.byte (s.load a)) }

/-- R77 and R100: at every address, the RD command decodes to an arm whose response is the first match of the read
chain, tested in its order. -/
def Obligations.ReadChainFirstMatch : Prop :=
  ∀ (s : State) (a : Addr), admitted s.cfg = true → s.failed = false →
    let m := (s.load s.cfg.statAddr).toNat % 4
    ∃ i, decode s.cfg (encodeRd a) = .ok i ∧
      ∃ b : Byte, exec i s = .next { s with response := some (.byte b) } ∧
        if a.toNat ≤ 0x7FFF then b = bcReadRom s.bc a
        else if 0xA000 ≤ a.toNat ∧ a.toNat ≤ 0xBFFF then b = bcReadRam s.bc a
        else if a = s.cfg.p1Addr then exec .rdP1 s = .next { s with response := some (.byte b) }
        else if a = s.cfg.divAddr then b = s.divider.extractLsb' 8 8
        else if 0xFE00 ≤ a.toNat ∧ a.toNat ≤ 0xFE9F ∧ (m = 2 ∨ m = 3) then b = 0xFF
        else if s.cfg.tileLo.toNat ≤ a.toNat ∧ a.toNat ≤ s.cfg.tileHi.toNat ∧ m = 3 then b = 0xFF
        else b = s.load a

/-- R108 (the spec's decision D11): RDW is two RDs, of `a` and of `a +16 1`, each through the whole chain on its own;
the low byte comes from `a`. -/
def Obligations.WordReadIsTwoReads : Prop :=
  ∀ (s : State) (a : Addr), admitted s.cfg = true → s.failed = false →
    ∃ i j, decode s.cfg (encodeRd a) = .ok i ∧ decode s.cfg (encodeRd (a + 1)) = .ok j ∧
      ∃ lo hi : Byte, exec i s = .next { s with response := some (.byte lo) } ∧
        exec j s = .next { s with response := some (.byte hi) } ∧
        exec (.rdw a) s = .next { s with response := some (.word (hi ++ lo)) }

/-- R51 and R107, the spec's own inferences: no read changes state, only the response may differ; and reads are
idempotent: a read repeated at once ends in the same state, with the same response. -/
def Obligations.ReadsChangeNoState : Prop :=
  ∀ (i : Instr) (s t : State), isRead i = true → exec i s = .next t →
    t = { s with response := t.response } ∧ exec i t = .next t

/-! ### Writes -/

/-- R121, R122 and R42: WR in the two cartridge windows is the BankController's write and touches nothing else; MEM is
untouched. -/
def Obligations.WindowWritesDelegate : Prop :=
  ∀ (s : State) (a : Addr) (v : Byte), s.failed = false →
    exec (.wrRom a v) s = .next { s with bc := bcWriteRom s.bc a v, response := none, draws := s.draws + 1 } ∧
    exec (.wrXram a v) s = .next { s with bc := bcWriteRam s.bc a v, response := none, draws := s.draws + 1 }

/-- R123 (the spec's decision D7): WR of P1 replaces bits 5 and 4 of the stored byte and keeps the other six. -/
def Obligations.P1WriteStoresSelectionBits : Prop :=
  ∀ (s : State) (v : Byte), s.failed = false →
    ∃ t, exec (.wrP1 v) s = .next t ∧ s.onlyMemory t ∧
      (∀ x, x ≠ s.cfg.p1Addr → t.load x = s.load x) ∧
      ∀ i < 8, (t.load s.cfg.p1Addr).getLsbD i =
        if i = 4 ∨ i = 5 then v.getLsbD i else (s.load s.cfg.p1Addr).getLsbD i

/-- R124 (the spec's decision D8): WR of DIV, whatever the value, sets DIVIDER to 0 and changes no byte of MEM, so
neither TIMA nor IF. -/
def Obligations.DivWriteClearsDivider : Prop :=
  ∀ (s : State) (v : Byte), s.failed = false →
    exec (.wrDiv v) s = .next { s with divider := 0, response := none, draws := s.draws + 1 }

/-- R125: WR of LCDC with bit 7 clear sets STAT[1:0] to 0, keeps STAT[7:2], and stores the value in LCDC, whatever
LCDC held; with bit 7 set it is a plain store and STAT is untouched. -/
def Obligations.DisplayOffClearsMode : Prop :=
  ∀ (s : State) (v : Byte), admitted s.cfg = true → s.failed = false →
    (v.getLsbD 7 = false →
      decode s.cfg (encodeWr s.cfg.lcdcAddr v) = .ok (.wrLcdcOff v) ∧
      ∃ t, exec (.wrLcdcOff v) s = .next t ∧ s.onlyMemory t ∧
        t.load s.cfg.lcdcAddr = v ∧
        (t.load s.cfg.statAddr).extractLsb' 0 2 = 0 ∧
        (t.load s.cfg.statAddr).extractLsb' 2 6 = (s.load s.cfg.statAddr).extractLsb' 2 6 ∧
        ∀ x, x ≠ s.cfg.lcdcAddr → x ≠ s.cfg.statAddr → t.load x = s.load x) ∧
    (v.getLsbD 7 = true →
      decode s.cfg (encodeWr s.cfg.lcdcAddr v) = .ok (.wrMem s.cfg.lcdcAddr v) ∧
      ∃ t, exec (.wrMem s.cfg.lcdcAddr v) s = .next t ∧ s.onlyMemory t ∧
        ∀ x, t.load x = if x = s.cfg.lcdcAddr then v else s.load x)

/-- R128: each of the four rows of the mirrored range stores the byte at `a` and at `a + 0x2000`, and nothing else;
the top of working RAM, 0xDE00 to 0xDFFF, is stored without a mirror. -/
def Obligations.WorkingRamWriteMirrors : Prop :=
  ∀ (s : State) (a : Addr) (v : Byte), admitted s.cfg = true → s.failed = false →
    (∀ i ∈ [Instr.wrMir0 a v, .wrMir1 a v, .wrMir2 a v, .wrMir3 a v],
      ∃ t, exec i s = .next t ∧ s.onlyMemory t ∧
        ∀ x, t.load x = if x = a ∨ x = a + 0x2000 then v else s.load x) ∧
    (0xC000 ≤ a.toNat → a.toNat < 0xDE00 →
      ∃ i ∈ [Instr.wrMir0 a v, .wrMir1 a v, .wrMir2 a v, .wrMir3 a v], decode s.cfg (encodeWr a v) = .ok i) ∧
    (0xDE00 ≤ a.toNat → a.toNat ≤ 0xDFFF →
      decode s.cfg (encodeWr a v) = .ok (.wrMem a v) ∧
      ∃ t, exec (.wrMem a v) s = .next t ∧ ∀ x, t.load x = if x = a then v else s.load x)

/-- R129: each of the four rows of echo RAM stores the byte at `a` and at `a - 0x2000`, and nothing else; the sprite
table, from 0xFE00 on, is stored without a mirror. -/
def Obligations.EchoRamWriteMirrors : Prop :=
  ∀ (s : State) (a : Addr) (v : Byte), admitted s.cfg = true → s.failed = false →
    (∀ i ∈ [Instr.wrEcho0 a v, .wrEcho1 a v, .wrEcho2 a v, .wrEcho3 a v],
      ∃ t, exec i s = .next t ∧ s.onlyMemory t ∧
        ∀ x, t.load x = if x = a ∨ x = a - 0x2000 then v else s.load x) ∧
    (0xE000 ≤ a.toNat → a.toNat < 0xFE00 →
      ∃ i ∈ [Instr.wrEcho0 a v, .wrEcho1 a v, .wrEcho2 a v, .wrEcho3 a v], decode s.cfg (encodeWr a v) = .ok i) ∧
    (0xFE00 ≤ a.toNat → a.toNat ≤ 0xFE9F →
      decode s.cfg (encodeWr a v) = .ok (.wrMem a v) ∧
      ∃ t, exec (.wrMem a v) s = .next t ∧ ∀ x, t.load x = if x = a then v else s.load x)

/-- R130 and R131: the default store changes the one byte, all 8 bits of it, and nothing else, in every display mode;
WR of the sprite table, of tile memory, and of TIMA, TMA, TAC, IF and STAT is that store. -/
def Obligations.PlainWriteStoresByte : Prop :=
  ∀ (s : State) (a : Addr) (v : Byte), admitted s.cfg = true → s.failed = false →
    (∃ t, exec (.wrMem a v) s = .next t ∧ s.onlyMemory t ∧ ∀ x, t.load x = if x = a then v else s.load x) ∧
    ((0xFE00 ≤ a.toNat ∧ a.toNat ≤ 0xFE9F) ∨ (s.cfg.tileLo.toNat ≤ a.toNat ∧ a.toNat ≤ s.cfg.tileHi.toNat) ∨
        a ∈ [s.cfg.timaAddr, s.cfg.tmaAddr, s.cfg.tacAddr, s.cfg.ifAddr, s.cfg.statAddr] →
      decode s.cfg (encodeWr a v) = .ok (.wrMem a v))

/-- R120: at every address, the WR command decodes to an arm whose effect is the first match of the write chain,
tested in its order; the arm of LCDC continues into the default store, and DMA's does if DMA_REG_STORE. -/
def Obligations.WriteChainFirstMatch : Prop :=
  ∀ (s : State) (a : Addr) (v : Byte), admitted s.cfg = true → s.failed = false →
    ∃ i t, decode s.cfg (encodeWr a v) = .ok i ∧ exec i s = .next t ∧
      if a.toNat ≤ 0x7FFF then t = { s with bc := bcWriteRom s.bc a v, response := none, draws := s.draws + 1 }
      else if 0xA000 ≤ a.toNat ∧ a.toNat ≤ 0xBFFF then
        t = { s with bc := bcWriteRam s.bc a v, response := none, draws := s.draws + 1 }
      else if a = s.cfg.p1Addr then exec (.wrP1 v) s = .next t
      else if a = s.cfg.divAddr then t = { s with divider := 0, response := none, draws := s.draws + 1 }
      else s.onlyMemory t ∧
        if a = s.cfg.lcdcAddr ∧ v.toNat < 0x80 then
          ∀ x, t.load x = if x = a then v
            else if x = s.cfg.statAddr then s.load s.cfg.statAddr &&& 0xFC else s.load x
        else if a = 0xFF46 then exec (.wrDma v) s = .next t
        else
          ∀ x, t.load x =
            if x = a then v
            else if 0xC000 ≤ a.toNat ∧ a.toNat < 0xDE00 ∧ x = a + 0x2000 then v
            else if 0xE000 ≤ a.toNat ∧ a.toNat < 0xFE00 ∧ x = a - 0x2000 then v
            else s.load x

/-- R133 (the spec's decision D11): WRW is two WRs, the low byte's at `a` and then, from the state it leaves, the high
byte's at `a +16 1`. (The model's own counter counts the operation once; it is put back between the two.) -/
def Obligations.WordWriteIsTwoWrites : Prop :=
  ∀ (s : State) (a : Addr) (w : Word), admitted s.cfg = true → s.failed = false →
    ∃ i j u t, decode s.cfg (encodeWr a (w.extractLsb' 0 8)) = .ok i ∧
      decode s.cfg (encodeWr (a + 1) (w.extractLsb' 8 8)) = .ok j ∧
      exec i s = .next u ∧ exec j { u with draws := s.draws } = .next t ∧
      exec (.wrw a w) s = .next t

/-- R43: what is written to working RAM below 0xDE00 is read in echo RAM, and the other way round. -/
def Obligations.EchoReadsBackWrite : Prop :=
  ∀ (s : State) (a b : Addr) (v : Byte), admitted s.cfg = true → s.failed = false →
    (inMirror a ∧ b = a + 0x2000 ∨ inEcho a ∧ b = a - 0x2000) →
    ∃ i j t, decode s.cfg (encodeWr a v) = .ok i ∧ decode s.cfg (encodeRd b) = .ok j ∧
      exec i s = .next t ∧ exec j t = .next { t with response := some (.byte v) }

/-- R239: after a display-off write the next read of the sprite table or of tile memory is not blocked. -/
def Obligations.DisplayOffUnblocksReads : Prop :=
  ∀ (s t : State) (v : Byte) (a : Addr), admitted s.cfg = true →
    exec (.wrLcdcOff v) s = .next t → a ≠ s.cfg.lcdcAddr → a ≠ s.cfg.statAddr →
    exec (.rdOam0 a) t = .next { t with response := some (.byte (s.load a)) } ∧
    exec (.rdOam1 a) t = .next { t with response := some (.byte (s.load a)) } ∧
    exec (.rdTile a) t = .next { t with response := some (.byte (s.load a)) }

/-! ### DMA -/

/-- R171, R172 and R174 (the spec's decisions D9, D10): a write of `page` to the DMA register copies 160 bytes from
`page * 256` to the sprite table: what RD of each source address responds before the write (DMA_SRC_PATH = `bus`), or
the raw byte (`raw`). The register's own byte takes the page if DMA_REG_STORE and keeps its value if not. Nothing else
changes. For page 0xFF with both groups of P1 selected and P1_BOTH = `any`, that the copied nibble is the one the RD
responds is the model's choice (log entry 7). -/
def Obligations.DmaCopiesPage : Prop :=
  ∀ (s : State) (page : Byte), admitted s.cfg = true → s.failed = false →
    ∃ t, exec (.wrDma page) s = .next t ∧ s.onlyMemory t ∧
      (∀ i < 160,
        let src : Addr := BitVec.ofNat 16 (page.toNat * 256 + i)
        match s.cfg.dmaSrcPath with
        | .bus => ∃ r, decode s.cfg (encodeRd src) = .ok r ∧
            exec r s = .next { s with response := some (.byte (t.load (BitVec.ofNat 16 (0xFE00 + i)))) }
        | .raw => t.load (BitVec.ofNat 16 (0xFE00 + i)) = s.load src) ∧
      t.load 0xFF46 = (if s.cfg.dmaRegStore then page else s.load 0xFF46) ∧
      ∀ x : Addr, ¬ inOam x → x ≠ 0xFF46 → t.load x = s.load x

/-- R176, the spec's own inference, page 0xFE with DMA_SRC_PATH = `bus`: in modes 2 and 3 the whole sprite table
becomes 0xFF, in modes 0 and 1 it does not change. -/
def Obligations.DmaOntoItself : Prop :=
  ∀ (s : State) (x : Addr), admitted s.cfg = true → s.failed = false → s.cfg.dmaSrcPath = .bus → inOam x →
    ∃ t, exec (.wrDma 0xFE) s = .next t ∧
      t.load x = if 2 ≤ (s.load s.cfg.statAddr).toNat % 4 then 0xFF else s.load x

/-! ### Timer -/

/-- R141: a disabled timer moves DIVIDER by `n` modulo 65536 and changes no byte of MEM. -/
def Obligations.DisabledTickMovesDividerOnly : Prop :=
  ∀ (s : State) (n : Word), s.failed = false → (s.load s.cfg.tacAddr).getLsbD 2 = false →
    exec (.tick n) s = .next { s with divider := s.divider + n, response := none, draws := s.draws + 1 }

/-- R142 (the spec's decision D4) to R145: one unit of an enabled timer adds 1 to DIVIDER; where the watched bit (9,
3, 5, 7 for TAC[1:0] = 0, 1, 2, 3) goes from 1 to 0, TIMA counts: 0xFF becomes TMA and raises IF bit 2, any other
value becomes TIMA + 1. -/
def Obligations.EnabledTickUnit : Prop :=
  ∀ (s : State), admitted s.cfg = true → s.failed = false → (s.load s.cfg.tacAddr).getLsbD 2 = true →
    let p := [9, 3, 5, 7].getD ((s.load s.cfg.tacAddr).toNat % 4) 0
    let edge := s.divider.getLsbD p = true ∧ (s.divider + 1).getLsbD p = false
    let tima := s.load s.cfg.timaAddr
    ∃ t, exec (.tick 1) s = .next t ∧
      t.divider = s.divider + 1 ∧ t.keys = s.keys ∧ t.bc = s.bc ∧ t.failed = s.failed ∧ t.response = none ∧
      s.samePorts t ∧
      (t.load s.cfg.timaAddr =
        if edge then (if tima = 0xFF then s.load s.cfg.tmaAddr else tima + 1) else tima) ∧
      (t.load s.cfg.ifAddr =
        if edge ∧ tima = 0xFF then s.load s.cfg.ifAddr ||| 0x04 else s.load s.cfg.ifAddr) ∧
      ∀ x, x ≠ s.cfg.timaAddr → x ≠ s.cfg.ifAddr → t.load x = s.load x

/-- R144: the falling edge of bit `p` in one unit, and the equivalent test: the low `p + 1` bits after it are zero. -/
def Obligations.FallingEdgeIsLowBitsZero : Prop :=
  ∀ (p : Nat) (d : Word), p < 16 →
    (fallingEdge p d (d + 1) = true ↔ (d + 1).toNat % 2 ^ (p + 1) = 0)

/-- R146, the spec's own inference: the closed form. With the timer enabled and watching bit `p`, TICK `n` counts `E =
(d + n) / 2^(p+1) - d / 2^(p+1)` edges; TIMA, from `t` with reload value `r`, is `t + E` up to 255 and from the first
overflow on runs from `r` with period `256 - r`; IF bit 2 is set if `t + E >= 256`, and nothing else changes. -/
def Obligations.TickClosedForm : Prop :=
  ∀ (s : State) (n : Word), admitted s.cfg = true → s.failed = false → (s.load s.cfg.tacAddr).getLsbD 2 = true →
    let period := 2 ^ ([9, 3, 5, 7].getD ((s.load s.cfg.tacAddr).toNat % 4) 0 + 1)
    let e := (s.divider.toNat + n.toNat) / period - s.divider.toNat / period
    let t0 := (s.load s.cfg.timaAddr).toNat
    let r := (s.load s.cfg.tmaAddr).toNat
    ∃ t, exec (.tick n) s = .next t ∧
      t.divider.toNat = (s.divider.toNat + n.toNat) % 65536 ∧
      t.keys = s.keys ∧ t.bc = s.bc ∧ t.failed = s.failed ∧ t.response = none ∧ s.samePorts t ∧
      ((t.load s.cfg.timaAddr).toNat = if t0 + e ≤ 255 then t0 + e else r + (t0 + e - 256) % (256 - r)) ∧
      (t.load s.cfg.ifAddr =
        if 256 ≤ t0 + e then s.load s.cfg.ifAddr ||| 0x04 else s.load s.cfg.ifAddr) ∧
      ∀ x, x ≠ s.cfg.timaAddr → x ≠ s.cfg.ifAddr → t.load x = s.load x

/-- R234, the spec's own inference: splitting a TICK gives the same final state (but for the model's own counter). -/
def Obligations.TickSplits : Prop :=
  ∀ (s : State) (n m : Word), admitted s.cfg = true → s.failed = false → n.toNat + m.toNat < 65536 →
    ∃ u t, exec (.tick n) s = .next u ∧ exec (.tick m) u = .next t ∧
      exec (.tick (n + m)) s = .next { t with draws := s.draws + 1 }

/-! ### Input -/

/-- R195 (the spec's decision D17) and R196: KEY replaces KEYS; if a key that was released is pressed now, IF bit 4 is
set and its other bits keep their value, whatever P1 selects; a release, or a key that stays pressed, raises nothing.
-/
def Obligations.KeyPressRaisesRequest : Prop :=
  ∀ (s : State) (k : Byte), s.failed = false →
    ∃ t, exec (.key k) s = .next t ∧
      t.keys = k ∧ t.divider = s.divider ∧ t.bc = s.bc ∧ t.failed = s.failed ∧ t.response = none ∧ s.samePorts t ∧
      ((∃ i < 8, k.getLsbD i = true ∧ s.keys.getLsbD i = false) →
        t.load s.cfg.ifAddr = s.load s.cfg.ifAddr ||| 0x10) ∧
      ((∀ i < 8, k.getLsbD i = true → s.keys.getLsbD i = true) →
        t.load s.cfg.ifAddr = s.load s.cfg.ifAddr) ∧
      ∀ x, x ≠ s.cfg.ifAddr → t.load x = s.load x

/-! ### Display port -/

/-- R180 (the spec's decision D24): OAMS `k`, in both rows of the table, responds the four bytes at `0xFE00 + 4k`,
byte `i` in bits 8i+7..8i, read raw. -/
def Obligations.SlotReadReturnsDescriptor : Prop :=
  ∀ (s : State) (k : BitVec 6), s.failed = false → k.toNat < 40 →
    ∃ x : BitVec 32,
      exec (.oams0 k) s = .next { s with response := some (.slot x) } ∧
      exec (.oams1 k) s = .next { s with response := some (.slot x) } ∧
      ∀ i < 4, x.extractLsb' (8 * i) 8 = s.load (BitVec.ofNat 16 (0xFE00 + 4 * k.toNat + i))

/-- R182 (the spec's decision D25): pixel `j` of a packed row is in bits 2j+1:2j, its low bit bit `7 - j` of `lo`, its
high bit that of `hi`. -/
def Obligations.PackInterleavesPlanes : Prop :=
  ∀ (lo hi : Byte) (j : Nat), j < 8 →
    (pack lo hi).getLsbD (2 * j) = lo.getLsbD (7 - j) ∧ (pack lo hi).getLsbD (2 * j + 1) = hi.getLsbD (7 - j)

/-- R181 (the spec's decision D25): RDT responds eight packed rows, row `r` in bits 16r+15..16r, from the raw bytes at
`a +16 2r` and `a +16 (2r + 1)`. -/
def Obligations.TileReadPacksRows : Prop :=
  ∀ (s : State) (a : Addr), s.failed = false →
    ∃ x : BitVec 128, exec (.rdt a) s = .next { s with response := some (.tile x) } ∧
      ∀ r < 8, x.extractLsb' (16 * r) 16 =
        pack (s.load (a + BitVec.ofNat 16 (2 * r))) (s.load (a + BitVec.ofNat 16 (2 * r + 1)))

/-- R183 (the spec's decision D25): RDBT is RDT of the tile that the map byte names: `TILE_BASE_U + 16*idx`, or
`TILE_BASE_S + 16*signed(idx)`, modulo 65536. -/
def Obligations.MapReadFindsTile : Prop :=
  ∀ (s : State) (a : Addr) (m : TileMode), s.failed = false →
    ∃ (d : Addr) (t : State), exec (.rdbt a m) s = .next t ∧ exec (.rdt d) s = .next t ∧
      (m = .unsignedBase → d.toNat = (s.cfg.tileBaseU.toNat + 16 * (s.load a).toNat) % 65536) ∧
      (m = .signedIndex → (d.toNat : Int) = (s.cfg.tileBaseS.toNat + 16 * (s.load a).toInt) % 65536)

/-! ### Cartridge -/

/-- R162 (the spec's decisions D18, D31): with ROM_ONLY, RD in the ROM window responds the image's byte or 0xFF past
its end, RD in the RAM window responds 0xFF, and a WR in either window changes no state. -/
def Obligations.RomOnlyCartridge : Prop :=
  ∀ (s : State) (a : Addr) (v : Byte), s.failed = false → s.bc.variant = .romOnly →
    (∃ b, exec (.rdRom a) s = .next { s with response := some (.byte b) } ∧
      (∀ h : a.toNat < s.bc.rom.length, b = s.bc.rom[a.toNat]) ∧ (s.bc.rom.length ≤ a.toNat → b = 0xFF)) ∧
    exec (.rdXram a) s = .next { s with response := some (.byte 0xFF) } ∧
    (∃ t, exec (.wrRom a v) s = .next t ∧ s.onlyDone t) ∧
    (∃ t, exec (.wrXram a v) s = .next t ∧ s.onlyDone t)

/-- R121, R122, R157 to R159 and R162 (the spec's decisions D18, D31). A write in the ROM window keeps the variant, the
image and the external RAM, and gives the bank-select state the variant's algorithm says. A write in the RAM window
keeps the variant, the image and the bank-select state; where the variant maps a byte of external RAM at `a` it stores
`v` there, which RD.XRAM of `a` then responds, and where it maps none it changes nothing and RD.XRAM responds 0xFF.
ROM_ONLY ignores both. A collaborator's algorithms are free functions (log entry 9), so this holds whatever they are;
an index past the end of the variant's external RAM maps no byte. -/
def Obligations.CartridgeWritesStayInPart : Prop :=
  ∀ (s : State) (a : Addr) (v : Byte), s.failed = false →
    (∃ t, exec (.wrRom a v) s = .next t ∧
      t.bc.variant = s.bc.variant ∧ t.bc.rom = s.bc.rom ∧ t.bc.xram = s.bc.xram ∧
      (s.bc.variant = .romOnly → t.bc.bank = s.bc.bank) ∧
      ∀ tag, s.bc.variant = .collab tag →
        t.bc.bank = Config.collabBankWrite tag s.bc.rom s.bc.bank s.bc.xram a v) ∧
    (∃ t, exec (.wrXram a v) s = .next t ∧
      t.bc.variant = s.bc.variant ∧ t.bc.rom = s.bc.rom ∧ t.bc.bank = s.bc.bank ∧
      (s.bc.variant = .romOnly → t.bc.xram = s.bc.xram) ∧
      ∀ tag, s.bc.variant = .collab tag →
        match Config.collabRamIndex tag s.bc.rom s.bc.bank a with
        | none =>
          t.bc.xram = s.bc.xram ∧ exec (.rdXram a) t = .next { t with response := some (.byte 0xFF) }
        | some k =>
          t.bc.xram = s.bc.xram.set k v ∧
          exec (.rdXram a) t =
            .next { t with response := some (.byte (if k < s.bc.xram.length then v else 0xFF)) })

/-! ### Whole-machine rules -/

/-- R10 and R16 (the spec's decision D8): no operation but RESET writes the bytes of MEM under the cartridge windows,
or `MEM[DIV_ADDR]`. -/
def Obligations.ShadowedBytesOnlyByReset : Prop :=
  ∀ (i : Instr) (s t : State) (x : Addr), admitted s.cfg = true → i.wf s.cfg = true → isReset i = false →
    exec i s = .next t → (inRom x ∨ inXram x ∨ x = s.cfg.divAddr) → t.load x = s.load x

/-- R15 and R123 (the spec's decision D7): no operation but RESET changes the stored bits 7:6 and 3:0 of P1. -/
def Obligations.P1RetainedBitsOnlyByReset : Prop :=
  ∀ (i : Instr) (s t : State), admitted s.cfg = true → i.wf s.cfg = true → isReset i = false →
    exec i s = .next t → t.load s.cfg.p1Addr &&& 0xCF = s.load s.cfg.p1Addr &&& 0xCF

/-- R11: DIVIDER is written by TICK, by a write of DIV (alone or as half of a WRW) and by RESET; a write leaves it as
it was or at 0. -/
def Obligations.DividerWriters : Prop :=
  ∀ (i : Instr) (s t : State), isReset i = false → exec i s = .next t → t.divider ≠ s.divider →
    (∃ n, i = .tick n) ∨
    ((∃ v, i = .wrDiv v) ∨ ∃ a w, i = .wrw a w ∧ (a = s.cfg.divAddr ∨ a + 1 = s.cfg.divAddr)) ∧ t.divider = 0

/-- R12, R13, R24 and R25 (the spec's decisions D17, D23): KEYS is written only by KEY and RESET; FAILED, the
cartridge's variant and its ROM image only by RESET. -/
def Obligations.KeysAndCartridgeWriters : Prop :=
  ∀ (i : Instr) (s t : State), isReset i = false → exec i s = .next t →
    t.failed = s.failed ∧ t.bc.variant = s.bc.variant ∧ t.bc.rom = s.bc.rom ∧
    ((∀ k, i ≠ .key k) → t.keys = s.keys)

/-- R20 and R206: the block never clears a request: an operation that is no bus write and no RESET leaves every IF bit
that is 1 at 1, and can set no bit but 2 (TICK) and 4 (KEY). -/
def Obligations.RequestsClearedOnlyByWrites : Prop :=
  ∀ (i : Instr) (s t : State), admitted s.cfg = true → isWrite i = false → isReset i = false →
    exec i s = .next t → ∀ b < 8,
      ((s.load s.cfg.ifAddr).getLsbD b = true → (t.load s.cfg.ifAddr).getLsbD b = true) ∧
      ((s.load s.cfg.ifAddr).getLsbD b = false → (t.load s.cfg.ifAddr).getLsbD b = true →
        b = 2 ∧ (∃ n, i = .tick n) ∨ b = 4 ∧ ∃ k, i = .key k)

/-- No operation changes the configuration, the commands that wait, the current port or the sideband. -/
def Obligations.PortsAndConfigurationKept : Prop :=
  ∀ (i : Instr) (s t : State), exec i s = .next t → s.samePorts t

/-! ### The script's pseudo-operations -/

/-- R82 (the spec's decision D28): `MODE m`, with the STAT byte just read, makes the display mode `m` and keeps
STAT[7:2]; the three selections leave P1[5:4] at direction 10, buttons 01 and neither 11; PRESS and RELEASE, with KEYS
as it is, set and clear exactly the keys of their mask; DIVRST clears DIVIDER. -/
def Obligations.PseudoOperationsExpand : Prop :=
  ∀ (s : State) (m : BitVec 2) (mask : Byte), admitted s.cfg = true → s.failed = false →
    let runs (w : CommandWord) (t : State) : Prop := ∃ i, decode s.cfg w = .ok i ∧ exec i s = .next t
    (∃ t, runs (scriptMode s.cfg (s.load s.cfg.statAddr) m) t ∧
      (t.load s.cfg.statAddr).extractLsb' 0 2 = m ∧
      (t.load s.cfg.statAddr).extractLsb' 2 6 = (s.load s.cfg.statAddr).extractLsb' 2 6) ∧
    (∃ t, runs (scriptSeldir s.cfg) t ∧ (t.load s.cfg.p1Addr).extractLsb' 4 2 = 0b10) ∧
    (∃ t, runs (scriptSelbtn s.cfg) t ∧ (t.load s.cfg.p1Addr).extractLsb' 4 2 = 0b01) ∧
    (∃ t, runs (scriptSelnone s.cfg) t ∧ (t.load s.cfg.p1Addr).extractLsb' 4 2 = 0b11) ∧
    (∃ t, runs (scriptPress s.keys mask) t ∧ ∀ i < 8, t.keys.getLsbD i = (s.keys.getLsbD i || mask.getLsbD i)) ∧
    (∃ t, runs (scriptRelease s.keys mask) t ∧ ∀ i < 8, t.keys.getLsbD i = (s.keys.getLsbD i && !mask.getLsbD i)) ∧
    (∃ t, runs (scriptDivrst s.cfg) t ∧ t.divider = 0) ∧
    ∃ t, runs (scriptDma mask) t ∧ exec (.wrDma mask) s = .next t

/-! ### RESET -/

/-- R160, R161 and R222 (the spec's decisions D19, D23): RESET ends with FAILED = 0 exactly when the image reaches the
header byte and BC_VARIANTS has it; then BC is that variant over that image. -/
def Obligations.ResetSelectsVariant : Prop :=
  ∀ (s : State) (b : Bool), admitted s.cfg = true →
    ∃ t, exec (.reset b) s = .next t ∧ t.response = none ∧ s.samePorts t ∧
      (t.failed = false ↔ ∃ h v, s.romIn[s.cfg.cartTypeOff]? = some h ∧ (h, v) ∈ s.cfg.bcVariants) ∧
      ∀ h v, s.romIn[s.cfg.cartTypeOff]? = some h → (h, v) ∈ s.cfg.bcVariants →
        t.bc.variant = v ∧ t.bc.rom = s.romIn ∧ (v = .romOnly → t.bc.bank = [] ∧ t.bc.xram = [])

/-- R32 and R223 (the spec's decisions D20, D21): an unbooted RESET leaves LOGO at LOGO_OFF, every other byte 0x00,
DIVIDER 0 and KEYS 0. -/
def Obligations.UnbootedResetValues : Prop :=
  ∀ (s t : State), admitted s.cfg = true → exec (.reset false) s = .next t → t.failed = false →
    t.divider = 0 ∧ t.keys = 0 ∧
    (∀ i, ∀ h : i < s.cfg.logo.length, t.load (s.cfg.logoOff + BitVec.ofNat 16 i) = s.cfg.logo[i]) ∧
    ∀ x : Addr, x.toNat < s.cfg.logoOff.toNat ∨ s.cfg.logoOff.toNat + 48 ≤ x.toNat → t.load x = 0x00

/-- R34 and R224 (the spec's decisions D20, D22): a booted RESET leaves P1 0xFF, STAT 0x81, IF 0xE1, then what
BOOT_TABLE_EXTRA names (its last entry for an address), every other byte 0x00, DIVIDER at BOOT_DIVIDER and KEYS 0. -/
def Obligations.BootedResetValues : Prop :=
  ∀ (s t : State), admitted s.cfg = true → exec (.reset true) s = .next t → t.failed = false →
    t.divider = s.cfg.bootDivider ∧ t.keys = 0 ∧
    t.load s.cfg.p1Addr = 0xFF ∧ t.load s.cfg.statAddr = 0x81 ∧ t.load s.cfg.ifAddr = 0xE1 ∧
    (∀ (pre post : List (Addr × Byte)) (x : Addr) (v : Byte),
      s.cfg.bootTableExtra = pre ++ (x, v) :: post → (∀ e ∈ post, e.1 ≠ x) → t.load x = v) ∧
    ∀ x : Addr, x ≠ s.cfg.p1Addr → x ≠ s.cfg.statAddr → x ≠ s.cfg.ifAddr →
      (∀ e ∈ s.cfg.bootTableExtra, e.1 ≠ x) → t.load x = 0x00

/-- R226 (the spec's decision D23): nothing of the old state survives a RESET: from any two states with the same
parameters, ports and image it ends in the same state (`draws`, the model's own counter, being the same too). -/
def Obligations.ResetForgetsOldState : Prop :=
  ∀ (s s' : State) (b : Bool), s.samePorts s' → s'.draws = s.draws → exec (.reset b) s = exec (.reset b) s'
end

