-- ==== Sys2Proof/Laws/Bank.lean ====
section
/-! SUPPORT. The contract of the BankController, for every variant (R156 to R160, R164): what each write and the
construction keep and set. -/

namespace Sys2Proof.Machine

/-- R157: a ROM-window write keeps the variant, the image and the external RAM. -/
theorem bcWriteRom_keeps (b : BankController) (a : Addr) (v : Byte) :
    (bcWriteRom b a v).variant = b.variant ∧ (bcWriteRom b a v).rom = b.rom ∧ (bcWriteRom b a v).xram = b.xram := by
  unfold bcWriteRom
  split <;> simp

/-- R159: a RAM-window write keeps the variant, the image and the bank-select state. -/
theorem bcWriteRam_keeps (b : BankController) (a : Addr) (v : Byte) :
    (bcWriteRam b a v).variant = b.variant ∧ (bcWriteRam b a v).rom = b.rom ∧ (bcWriteRam b a v).bank = b.bank := by
  unfold bcWriteRam
  split
  · simp
  · split <;> simp

/-- R162: ROM_ONLY ignores a write in either window. -/
theorem bcWrite_romOnly {b : BankController} (h : b.variant = .romOnly) (a : Addr) (v : Byte) :
    bcWriteRom b a v = b ∧ bcWriteRam b a v = b := by
  simp [bcWriteRom, bcWriteRam, h]

/-- R157: the bank-select state of a collaborator's variant after a ROM-window write. -/
theorem bcWriteRom_collab {b : BankController} {tag : Nat} (h : b.variant = .collab tag) (a : Addr) (v : Byte) :
    bcWriteRom b a v = { b with bank := Config.collabBankWrite tag b.rom b.bank b.xram a v } := by
  simp [bcWriteRom, h]

/-- R158, R159: no byte of external RAM is mapped at the address: the write is ignored, the read is the fill value. -/
theorem bcRam_unmapped {b : BankController} {tag : Nat} (h : b.variant = .collab tag) {a : Addr}
    (hi : Config.collabRamIndex tag b.rom b.bank a = none) (v : Byte) :
    bcWriteRam b a v = b ∧ bcReadRam b a = xramFill := by
  simp [bcWriteRam, bcReadRam, h, hi]

/-- R158, R159: byte `k` of external RAM is mapped at the address: the write stores there, and the read returns it. -/
theorem bcRam_mapped {b : BankController} {tag : Nat} (h : b.variant = .collab tag) {a : Addr} {k : Nat}
    (hi : Config.collabRamIndex tag b.rom b.bank a = some k) (v : Byte) :
    bcWriteRam b a v = { b with xram := b.xram.set k v } ∧
    bcReadRam (bcWriteRam b a v) a = if k < b.xram.length then v else xramFill := by
  have hw : bcWriteRam b a v = { b with xram := b.xram.set k v } := by simp [bcWriteRam, h, hi]
  refine ⟨hw, ?_⟩
  rw [hw]
  by_cases hk : k < b.xram.length <;> simp [bcReadRam, h, hi, hk]

/-- R160: `new` sets the variant and the image. -/
@[simp] theorem bcStart_variant (v : BcVariant) (rom : List Byte) : (bcStart v rom).variant = v := by
  cases v <;> rfl

@[simp] theorem bcStart_rom (v : BcVariant) (rom : List Byte) : (bcStart v rom).rom = rom := by
  cases v <;> rfl

/-- A header byte is in the domain of BC_VARIANTS when the lookup finds it. -/
theorem bcLookup_mem {l : List (Byte × BcVariant)} {h : Byte} {v : BcVariant} (hl : bcLookup l h = some v) :
    (h, v) ∈ l := by
  induction l with
  | nil => simp [bcLookup] at hl
  | cons e rest ih =>
    obtain ⟨k, w⟩ := e
    simp only [bcLookup] at hl
    split at hl
    · next hk => cases hl; subst hk; simp
    · exact List.mem_cons_of_mem _ (ih hl)

/-- BC_VARIANTS is a map: the entry for a header byte is the one the lookup finds. -/
theorem bcLookup_of_mem {l : List (Byte × BcVariant)} (hd : keysDistinct l = true) {h : Byte} {v : BcVariant}
    (hm : (h, v) ∈ l) : bcLookup l h = some v := by
  induction l with
  | nil => simp at hm
  | cons e rest ih =>
    obtain ⟨k, w⟩ := e
    simp only [keysDistinct, Bool.and_eq_true, List.all_eq_true, bne_iff_ne, ne_eq] at hd
    rcases List.mem_cons.1 hm with heq | hm
    · cases heq; simp [bcLookup]
    · have : ¬ k = h := fun hk => hd.1 _ hm hk.symm
      simp [bcLookup, this, ih hd.2 hm]

/-- What `BC_new` does: it fails where the image does not reach the header byte or the byte has no variant (R161), and
else starts that variant over the image (R160). -/
theorem bcNew_eq_ok {c : Config} {rom : List Byte} {b : BankController} :
    bcNew c rom = .ok b ↔
      ∃ h v, rom[c.cartTypeOff]? = some h ∧ bcLookup c.bcVariants h = some v ∧ b = bcStart v rom := by
  unfold bcNew
  cases rom[c.cartTypeOff]? with
  | none => simp
  | some h =>
    cases hl : bcLookup c.bcVariants h with
    | none => simp [hl]
    | some v => simp [hl, eq_comm]

end Sys2Proof.Machine
end

