-- ==== Sys2Proof/Laws/Map.lean ====
section
/-! SUPPORT. What an admitted configuration gives: the address facts that the rules take from R7, in the form `omega`
and `simp` use. -/

namespace Sys2Proof.Machine

theorem apart_iff (x y : Nat × Nat) : apart x y = true ↔ x.2 < y.1 ∨ y.2 < x.1 := by
  simp [apart]

theorem pairwiseApart_iff (l : List (Nat × Nat)) :
    pairwiseApart l = true ↔ l.Pairwise (fun x y => x.2 < y.1 ∨ y.2 < x.1) := by
  induction l with
  | nil => simp [pairwiseApart]
  | cons x rest ih => simp [pairwiseApart, List.pairwise_cons, ih, apart_iff]

/-- The default configuration is admitted. -/
theorem admitted_default : admitted defaultConfig = true := by decide +kernel

/-- The nine registers are distinct (R7). -/
structure RegsDistinct (c : Config) : Prop where
  p1_div : c.p1Addr ≠ c.divAddr
  p1_tima : c.p1Addr ≠ c.timaAddr
  p1_if : c.p1Addr ≠ c.ifAddr
  p1_lcdc : c.p1Addr ≠ c.lcdcAddr
  p1_stat : c.p1Addr ≠ c.statAddr
  p1_dma : c.p1Addr ≠ dmaAddr
  div_tima : c.divAddr ≠ c.timaAddr
  div_if : c.divAddr ≠ c.ifAddr
  div_lcdc : c.divAddr ≠ c.lcdcAddr
  div_stat : c.divAddr ≠ c.statAddr
  div_dma : c.divAddr ≠ dmaAddr
  tima_tma : c.timaAddr ≠ c.tmaAddr
  tima_tac : c.timaAddr ≠ c.tacAddr
  tima_if : c.timaAddr ≠ c.ifAddr
  tma_if : c.tmaAddr ≠ c.ifAddr
  tac_if : c.tacAddr ≠ c.ifAddr
  if_stat : c.ifAddr ≠ c.statAddr
  if_lcdc : c.ifAddr ≠ c.lcdcAddr
  lcdc_stat : c.lcdcAddr ≠ c.statAddr
  lcdc_dma : c.lcdcAddr ≠ dmaAddr
  stat_dma : c.statAddr ≠ dmaAddr

/-- A register lies outside the two windows, working and echo RAM, the sprite table and tile memory (R7). -/
structure OutsideRanges (c : Config) (a : Addr) : Prop where
  rom  : 0x7FFF < a.toNat
  xram : a.toNat < 0xA000 ∨ 0xBFFF < a.toNat
  ram  : a.toNat < 0xC000 ∨ 0xFDFF < a.toNat
  oam  : a.toNat < 0xFE00 ∨ 0xFE9F < a.toNat
  tile : a.toNat < c.tileLo.toNat ∨ c.tileHi.toNat < a.toNat

/-- What `admitted` says, part by part. -/
theorem admitted_parts {c : Config} (h : admitted c = true) :
    c.logo.length = 48 ∧ c.logoOff.toNat + 48 ≤ 0x8000 ∧
    (∀ e ∈ c.bootTableExtra, extraAllowed c e.1 = true) ∧
    keysDistinct c.bcVariants = true ∧ pairwiseApart (addressSets c) = true := by
  simp only [admitted, Bool.and_eq_true, beq_iff_eq, decide_eq_true_eq, List.all_eq_true] at h
  obtain ⟨⟨⟨⟨⟨h1, h2⟩, h3⟩, h4⟩, -⟩, h6⟩ := h
  exact ⟨h1, h2, fun e he => h3 e he, h4, h6⟩

/-- R7 as three facts: the registers are pairwise different, each is apart from every range, the ranges are apart. -/
theorem admitted_apart {c : Config} (h : admitted c = true) :
    (registerAddrs c).Nodup ∧
    (∀ a ∈ registerAddrs c,
      ∀ r ∈ [(0x0000, 0x7FFF), (0xA000, 0xBFFF), (0xC000, 0xFDFF), (0xFE00, 0xFE9F), (c.tileLo.toNat, c.tileHi.toNat)],
        a.toNat < r.1 ∨ r.2 < a.toNat) ∧
    ∀ r ∈ [(0x0000, 0x7FFF), (0xA000, 0xBFFF), (0xC000, 0xFDFF), (0xFE00, 0xFE9F)],
      r.2 < c.tileLo.toNat ∨ c.tileHi.toNat < r.1 := by
  have hp := (admitted_parts h).2.2.2.2
  rw [pairwiseApart_iff, addressSets, List.pairwise_append] at hp
  obtain ⟨h1, h2, h3⟩ := hp
  refine ⟨?_, ?_, ?_⟩
  · rw [List.pairwise_map] at h1
    exact h1.imp (fun {a b} hab he => by subst he; exact absurd hab (by simp))
  · intro a ha r hr
    exact h3 _ (List.mem_map_of_mem ha) r hr
  · intro r hr
    have h4 : List.Pairwise (fun x y : Nat × Nat => x.2 < y.1 ∨ y.2 < x.1)
        ([(0x0000, 0x7FFF), (0xA000, 0xBFFF), (0xC000, 0xFDFF), (0xFE00, 0xFE9F)] ++
          [(c.tileLo.toNat, c.tileHi.toNat)]) := h2
    exact (List.pairwise_append.1 h4).2.2 r hr (c.tileLo.toNat, c.tileHi.toNat) (by simp)

/-- R7: every register is outside the ranges. -/
theorem admitted_outside {c : Config} (h : admitted c = true) : ∀ a ∈ registerAddrs c, OutsideRanges c a := by
  intro a ha
  have hr := (admitted_apart h).2.1 a ha
  simp only [List.mem_cons, List.not_mem_nil, or_false, forall_eq_or_imp, forall_eq, Nat.not_lt_zero, false_or] at hr
  exact ⟨hr.1, hr.2.1, hr.2.2.1, hr.2.2.2.1, hr.2.2.2.2⟩

/-- R7: the registers are distinct. -/
theorem admitted_distinct {c : Config} (h : admitted c = true) : RegsDistinct c := by
  have hn := (admitted_apart h).1
  simp only [registerAddrs, List.nodup_cons, List.mem_cons, List.not_mem_nil, or_false, not_or, not_false_eq_true,
    List.nodup_nil, and_true] at hn
  constructor <;> simp [hn]

/-- R7: tile memory is apart from the windows, working and echo RAM and the sprite table. -/
theorem admitted_tile {c : Config} (h : admitted c = true) {a : Addr} (ha : inTile c a) :
    0x7FFF < a.toNat ∧ (a.toNat < 0xA000 ∨ 0xBFFF < a.toNat) ∧ (a.toNat < 0xC000 ∨ 0xFDFF < a.toNat) ∧
      (a.toNat < 0xFE00 ∨ 0xFE9F < a.toNat) := by
  have hr := (admitted_apart h).2.2
  simp only [List.mem_cons, List.not_mem_nil, or_false, forall_eq_or_imp, forall_eq, Nat.not_lt_zero, or_false] at hr
  obtain ⟨h1, h2, h3, h4⟩ := hr
  have := ha.1
  have := ha.2
  refine ⟨?_, ?_, ?_, ?_⟩ <;> omega

/-- The registers by name, each outside the ranges. -/
structure RegsOutside (c : Config) : Prop where
  p1 : OutsideRanges c c.p1Addr
  div : OutsideRanges c c.divAddr
  tima : OutsideRanges c c.timaAddr
  ifr : OutsideRanges c c.ifAddr
  lcdc : OutsideRanges c c.lcdcAddr
  stat : OutsideRanges c c.statAddr

theorem admitted_regs {c : Config} (h : admitted c = true) : RegsOutside c := by
  constructor <;> exact admitted_outside h _ (by simp [registerAddrs])

end Sys2Proof.Machine
end

