-- ==== Sys2Proof/Laws/Memory.lean ====
section
/-! SUPPORT. The laws of MEM: read after write, the canonical form kept by every operation, equality of canonical
memories by their bytes. -/

namespace Sys2Proof.Machine

@[simp] theorem Memory.read_nil (a : Nat) : Memory.read [] a = unlistedByte := rfl

@[simp] theorem Memory.read_cons (k : Nat) (v : Byte) (rest : Memory) (a : Nat) :
    Memory.read ((k, v) :: rest) a = if k = a then v else Memory.read rest a := rfl

theorem Memory.read_erase (m : Memory) (a b : Nat) :
    Memory.read (Memory.erase m a) b = if b = a then unlistedByte else Memory.read m b := by
  induction m with
  | nil => simp [Memory.erase]
  | cons c rest ih =>
    obtain ⟨k, v⟩ := c
    by_cases hk : k = a
    · subst hk
      simp only [Memory.erase, bne_self_eq_false, Bool.false_eq_true, not_false_eq_true, List.filter_cons_of_neg,
        Memory.read_cons] at ih ⊢
      rw [ih]
      by_cases hb : b = k <;> simp [hb, eq_comm]
    · have h : Memory.erase ((k, v) :: rest) a = (k, v) :: Memory.erase rest a := by
        simp [Memory.erase, hk]
      rw [h, Memory.read_cons, Memory.read_cons, ih]
      by_cases hb : b = a <;> simp [hb, hk]

theorem Memory.read_insert (m : Memory) (a : Nat) (v : Byte) (b : Nat) (h : ∀ c ∈ m, c.1 ≠ a) :
    Memory.read (Memory.insert m a v) b = if b = a then v else Memory.read m b := by
  induction m with
  | nil => simp [Memory.insert, eq_comm (a := a)]
  | cons c rest ih =>
    obtain ⟨k, w⟩ := c
    have hk : k ≠ a := h (k, w) (by simp)
    simp only [Memory.insert]
    split
    · simp [eq_comm (a := a)]
    · rw [Memory.read_cons, Memory.read_cons, ih (fun c hc => h c (by simp [hc]))]
      by_cases hb : b = a <;> simp [hb, hk]

theorem Memory.erase_ne (m : Memory) (a : Nat) : ∀ c ∈ Memory.erase m a, c.1 ≠ a := by
  intro c hc
  simpa using (List.mem_filter.1 hc).2

/-- Read after write, for every memory: the value written at its address, every other byte as before. -/
@[simp] theorem Memory.read_write (m : Memory) (a : Nat) (v : Byte) (b : Nat) :
    Memory.read (Memory.write m a v) b = if b = a then v else Memory.read m b := by
  unfold Memory.write
  split
  · next hv => rw [Memory.read_erase, hv]
  · rw [Memory.read_insert _ _ _ _ (Memory.erase_ne m a), Memory.read_erase]
    by_cases hb : b = a <;> simp [hb]

theorem Memory.wf_erase {m : Memory} (h : Memory.wf m) (a : Nat) : Memory.wf (Memory.erase m a) :=
  ⟨h.1.filter _, fun c hc => h.2 c (List.mem_of_mem_filter hc)⟩

theorem Memory.mem_insert {m : Memory} {a : Nat} {v : Byte} {c : Host.Cell} :
    c ∈ Memory.insert m a v ↔ c = (a, v) ∨ c ∈ m := by
  induction m with
  | nil => simp [Memory.insert]
  | cons d rest ih =>
    simp only [Memory.insert]
    split
    · simp
    · simp only [List.mem_cons, ih]
      tauto

theorem Memory.wf_insert {m : Memory} (h : Memory.wf m) {a : Nat} {v : Byte} (ha : a < 65536)
    (hv : v ≠ unlistedByte) (hm : ∀ c ∈ m, c.1 ≠ a) : Memory.wf (Memory.insert m a v) := by
  refine ⟨?_, fun c hc => ?_⟩
  · have hs := h.1
    clear h
    induction m with
    | nil => simp [Memory.insert]
    | cons d rest ih =>
      have hd := List.pairwise_cons.1 hs
      have hda : d.1 ≠ a := hm d (by simp)
      simp only [Memory.insert]
      split
      · next hlt =>
        refine List.pairwise_cons.2 ⟨fun c hc => ?_, hs⟩
        rcases List.mem_cons.1 hc with rfl | hc
        · exact hlt
        · exact Nat.lt_trans hlt (hd.1 c hc)
      · next hlt =>
        refine List.pairwise_cons.2 ⟨fun c hc => ?_, ih (fun c hc => hm c (by simp [hc])) hd.2⟩
        rcases Memory.mem_insert.1 hc with rfl | hc
        · show d.1 < a
          omega
        · exact hd.1 c hc
  · rcases Memory.mem_insert.1 hc with rfl | hc
    · exact ⟨ha, hv⟩
    · exact h.2 c hc

/-- A store keeps the canonical form. -/
theorem Memory.wf_write {m : Memory} (h : Memory.wf m) {a : Nat} (ha : a < 65536) (v : Byte) :
    Memory.wf (Memory.write m a v) := by
  unfold Memory.write
  split
  · exact Memory.wf_erase h a
  · next hv => exact Memory.wf_insert (Memory.wf_erase h a) ha hv (Memory.erase_ne m a)

theorem Memory.wf_nil : Memory.wf [] := ⟨List.Pairwise.nil, fun _ hc => nomatch hc⟩

/-- A list of stores keeps the canonical form. -/
theorem Memory.wf_writeAll {m : Memory} (h : Memory.wf m) (l : List (Addr × Byte)) :
    Memory.wf (Memory.writeAll m l) := by
  unfold Memory.writeAll
  induction l generalizing m with
  | nil => exact h
  | cons e l ih => exact ih (Memory.wf_write h e.1.isLt e.2)

/-- The memory that a list of cells stands for is canonical. -/
theorem Memory.wf_ofCells (l : List Host.Cell) : Memory.wf (Memory.ofCells l) := by
  unfold Memory.ofCells
  suffices ∀ m, Memory.wf m → Memory.wf (l.foldl (fun m e => Memory.write m (e.1 % 65536) e.2) m) from
    this [] Memory.wf_nil
  induction l with
  | nil => exact fun m h => h
  | cons e l ih => exact fun m h => ih _ (Memory.wf_write h (Nat.mod_lt _ (by decide)) e.2)

/-- RESET's MEM is canonical. -/
theorem wf_resetMem (c : Config) (b : Bool) : Memory.wf (resetMem c b) :=
  Memory.wf_writeAll Memory.wf_nil _

/-- A byte after a list of stores: the last store to it, or the byte before. -/
theorem Memory.read_writeAll (m : Memory) (l : List (Addr × Byte)) (a : Addr) :
    Memory.read (Memory.writeAll m l) a.toNat =
      match l.reverse.find? (fun e => e.1 == a) with
      | some e => e.2
      | none => Memory.read m a.toNat := by
  unfold Memory.writeAll
  induction l generalizing m with
  | nil => simp
  | cons e l ih =>
    rw [List.foldl_cons, ih, List.reverse_cons, List.find?_append]
    cases l.reverse.find? (fun e => e.1 == a) with
    | some f => simp
    | none =>
      by_cases h : e.1 = a
      · simp [h]
      · have h' : a.toNat ≠ e.1.toNat := fun h'' => h (BitVec.eq_of_toNat_eq h''.symm)
        simp [h, h']

theorem Memory.read_of_mem {m : Memory} (h : Memory.wf m) {c : Host.Cell} (hc : c ∈ m) :
    Memory.read m c.1 = c.2 := by
  have hs := h.1
  clear h
  induction m with
  | nil => simp at hc
  | cons d rest ih =>
    obtain ⟨k, v⟩ := d
    have hd := List.pairwise_cons.1 hs
    rcases List.mem_cons.1 hc with rfl | hc
    · simp
    · have hlt : k < c.1 := hd.1 c hc
      rw [Memory.read_cons, if_neg (Nat.ne_of_lt hlt), ih hc hd.2]

theorem Memory.mem_of_read {m : Memory} {a : Nat} (h : Memory.read m a ≠ unlistedByte) :
    (a, Memory.read m a) ∈ m := by
  induction m with
  | nil => simp at h
  | cons d rest ih =>
    obtain ⟨k, v⟩ := d
    rw [Memory.read_cons] at h ⊢
    split at h
    · next hk => subst hk; simp
    · next hk => rw [if_neg hk]; exact List.mem_cons_of_mem _ (ih h)

/-- Canonical memories with the same bytes are the same data. -/
theorem Memory.ext_of_read {m n : Memory} (hm : Memory.wf m) (hn : Memory.wf n)
    (h : ∀ a : Addr, Memory.read m a.toNat = Memory.read n a.toNat) : m = n := by
  have sub : ∀ {m n : Memory}, Memory.wf m → (∀ a : Addr, Memory.read m a.toNat = Memory.read n a.toNat) →
      ∀ c ∈ m, c ∈ n := by
    intro m n hm h c hc
    obtain ⟨hlt, hne⟩ := hm.2 c hc
    have hr := h (BitVec.ofNat 16 c.1)
    rw [BitVec.toNat_ofNat, Nat.mod_eq_of_lt hlt, Memory.read_of_mem hm hc] at hr
    have := Memory.mem_of_read (m := n) (a := c.1) (hr ▸ hne)
    rwa [← hr] at this
  have nd : ∀ {m : Memory}, Memory.wf m → m.Nodup := fun hm =>
    hm.1.imp (fun {x y} hlt he => by rw [he] at hlt; exact Nat.lt_irrefl _ hlt)
  have perm : m.Perm n := (List.perm_ext_iff_of_nodup (nd hm) (nd hn)).2
    fun c => ⟨sub hm h c, sub hn (fun a => (h a).symm) c⟩
  exact perm.eq_of_pairwise (fun x y _ _ h1 h2 => absurd h1 (Nat.lt_asymm h2)) hm.1 hn.1

end Sys2Proof.Machine
end

