-- ==== Sys2Proof/Laws/State.lean ====
section
/-! SUPPORT. One lemma for each field after each named update of the state, and what a raw read gives after each. -/

namespace Sys2Proof.Machine

/-! ### The fields after each update -/

@[simp] theorem State.store_mem (s : State) (a : Addr) (v : Byte) : (s.store a v).mem = Memory.write s.mem a.toNat v := rfl
@[simp] theorem State.store_divider (s : State) (a : Addr) (v : Byte) : (s.store a v).divider = s.divider := rfl
@[simp] theorem State.store_keys (s : State) (a : Addr) (v : Byte) : (s.store a v).keys = s.keys := rfl
@[simp] theorem State.store_bc (s : State) (a : Addr) (v : Byte) : (s.store a v).bc = s.bc := rfl
@[simp] theorem State.store_failed (s : State) (a : Addr) (v : Byte) : (s.store a v).failed = s.failed := rfl
@[simp] theorem State.store_inbox (s : State) (a : Addr) (v : Byte) : (s.store a v).inbox = s.inbox := rfl
@[simp] theorem State.store_port (s : State) (a : Addr) (v : Byte) : (s.store a v).port = s.port := rfl
@[simp] theorem State.store_romIn (s : State) (a : Addr) (v : Byte) : (s.store a v).romIn = s.romIn := rfl
@[simp] theorem State.store_response (s : State) (a : Addr) (v : Byte) : (s.store a v).response = s.response := rfl
@[simp] theorem State.store_cfg (s : State) (a : Addr) (v : Byte) : (s.store a v).cfg = s.cfg := rfl
@[simp] theorem State.store_draws (s : State) (a : Addr) (v : Byte) : (s.store a v).draws = s.draws := rfl

@[simp] theorem State.setDivider_mem (s : State) (d : Word) : (s.setDivider d).mem = s.mem := rfl
@[simp] theorem State.setDivider_divider (s : State) (d : Word) : (s.setDivider d).divider = d := rfl
@[simp] theorem State.setDivider_keys (s : State) (d : Word) : (s.setDivider d).keys = s.keys := rfl
@[simp] theorem State.setDivider_bc (s : State) (d : Word) : (s.setDivider d).bc = s.bc := rfl
@[simp] theorem State.setDivider_failed (s : State) (d : Word) : (s.setDivider d).failed = s.failed := rfl
@[simp] theorem State.setDivider_inbox (s : State) (d : Word) : (s.setDivider d).inbox = s.inbox := rfl
@[simp] theorem State.setDivider_port (s : State) (d : Word) : (s.setDivider d).port = s.port := rfl
@[simp] theorem State.setDivider_romIn (s : State) (d : Word) : (s.setDivider d).romIn = s.romIn := rfl
@[simp] theorem State.setDivider_response (s : State) (d : Word) : (s.setDivider d).response = s.response := rfl
@[simp] theorem State.setDivider_cfg (s : State) (d : Word) : (s.setDivider d).cfg = s.cfg := rfl
@[simp] theorem State.setDivider_draws (s : State) (d : Word) : (s.setDivider d).draws = s.draws := rfl

@[simp] theorem State.setKeys_mem (s : State) (k : Byte) : (s.setKeys k).mem = s.mem := rfl
@[simp] theorem State.setKeys_divider (s : State) (k : Byte) : (s.setKeys k).divider = s.divider := rfl
@[simp] theorem State.setKeys_keys (s : State) (k : Byte) : (s.setKeys k).keys = k := rfl
@[simp] theorem State.setKeys_bc (s : State) (k : Byte) : (s.setKeys k).bc = s.bc := rfl
@[simp] theorem State.setKeys_failed (s : State) (k : Byte) : (s.setKeys k).failed = s.failed := rfl
@[simp] theorem State.setKeys_inbox (s : State) (k : Byte) : (s.setKeys k).inbox = s.inbox := rfl
@[simp] theorem State.setKeys_port (s : State) (k : Byte) : (s.setKeys k).port = s.port := rfl
@[simp] theorem State.setKeys_romIn (s : State) (k : Byte) : (s.setKeys k).romIn = s.romIn := rfl
@[simp] theorem State.setKeys_response (s : State) (k : Byte) : (s.setKeys k).response = s.response := rfl
@[simp] theorem State.setKeys_cfg (s : State) (k : Byte) : (s.setKeys k).cfg = s.cfg := rfl
@[simp] theorem State.setKeys_draws (s : State) (k : Byte) : (s.setKeys k).draws = s.draws := rfl

@[simp] theorem State.setBc_mem (s : State) (b : BankController) : (s.setBc b).mem = s.mem := rfl
@[simp] theorem State.setBc_divider (s : State) (b : BankController) : (s.setBc b).divider = s.divider := rfl
@[simp] theorem State.setBc_keys (s : State) (b : BankController) : (s.setBc b).keys = s.keys := rfl
@[simp] theorem State.setBc_bc (s : State) (b : BankController) : (s.setBc b).bc = b := rfl
@[simp] theorem State.setBc_failed (s : State) (b : BankController) : (s.setBc b).failed = s.failed := rfl
@[simp] theorem State.setBc_inbox (s : State) (b : BankController) : (s.setBc b).inbox = s.inbox := rfl
@[simp] theorem State.setBc_port (s : State) (b : BankController) : (s.setBc b).port = s.port := rfl
@[simp] theorem State.setBc_romIn (s : State) (b : BankController) : (s.setBc b).romIn = s.romIn := rfl
@[simp] theorem State.setBc_response (s : State) (b : BankController) : (s.setBc b).response = s.response := rfl
@[simp] theorem State.setBc_cfg (s : State) (b : BankController) : (s.setBc b).cfg = s.cfg := rfl
@[simp] theorem State.setBc_draws (s : State) (b : BankController) : (s.setBc b).draws = s.draws := rfl

@[simp] theorem State.respond_mem (s : State) (r : Response) : (s.respond r).mem = s.mem := rfl
@[simp] theorem State.respond_divider (s : State) (r : Response) : (s.respond r).divider = s.divider := rfl
@[simp] theorem State.respond_keys (s : State) (r : Response) : (s.respond r).keys = s.keys := rfl
@[simp] theorem State.respond_bc (s : State) (r : Response) : (s.respond r).bc = s.bc := rfl
@[simp] theorem State.respond_failed (s : State) (r : Response) : (s.respond r).failed = s.failed := rfl
@[simp] theorem State.respond_inbox (s : State) (r : Response) : (s.respond r).inbox = s.inbox := rfl
@[simp] theorem State.respond_port (s : State) (r : Response) : (s.respond r).port = s.port := rfl
@[simp] theorem State.respond_romIn (s : State) (r : Response) : (s.respond r).romIn = s.romIn := rfl
@[simp] theorem State.respond_response (s : State) (r : Response) : (s.respond r).response = some r := rfl
@[simp] theorem State.respond_cfg (s : State) (r : Response) : (s.respond r).cfg = s.cfg := rfl
@[simp] theorem State.respond_draws (s : State) (r : Response) : (s.respond r).draws = s.draws := rfl

@[simp] theorem State.complete_mem (s : State) : s.complete.mem = s.mem := rfl
@[simp] theorem State.complete_divider (s : State) : s.complete.divider = s.divider := rfl
@[simp] theorem State.complete_keys (s : State) : s.complete.keys = s.keys := rfl
@[simp] theorem State.complete_bc (s : State) : s.complete.bc = s.bc := rfl
@[simp] theorem State.complete_failed (s : State) : s.complete.failed = s.failed := rfl
@[simp] theorem State.complete_inbox (s : State) : s.complete.inbox = s.inbox := rfl
@[simp] theorem State.complete_port (s : State) : s.complete.port = s.port := rfl
@[simp] theorem State.complete_romIn (s : State) : s.complete.romIn = s.romIn := rfl
@[simp] theorem State.complete_response (s : State) : s.complete.response = none := rfl
@[simp] theorem State.complete_cfg (s : State) : s.complete.cfg = s.cfg := rfl
@[simp] theorem State.complete_draws (s : State) : s.complete.draws = s.draws + 1 := rfl

@[simp] theorem State.accept_mem (s : State) (c : Command) (rest : List Command) : (s.accept c rest).mem = s.mem := rfl
@[simp] theorem State.accept_divider (s : State) (c : Command) (rest : List Command) : (s.accept c rest).divider = s.divider := rfl
@[simp] theorem State.accept_keys (s : State) (c : Command) (rest : List Command) : (s.accept c rest).keys = s.keys := rfl
@[simp] theorem State.accept_bc (s : State) (c : Command) (rest : List Command) : (s.accept c rest).bc = s.bc := rfl
@[simp] theorem State.accept_failed (s : State) (c : Command) (rest : List Command) : (s.accept c rest).failed = s.failed := rfl
@[simp] theorem State.accept_inbox (s : State) (c : Command) (rest : List Command) : (s.accept c rest).inbox = rest := rfl
@[simp] theorem State.accept_port (s : State) (c : Command) (rest : List Command) : (s.accept c rest).port = c.port := rfl
@[simp] theorem State.accept_romIn (s : State) (c : Command) (rest : List Command) : (s.accept c rest).romIn = c.rom := rfl
@[simp] theorem State.accept_response (s : State) (c : Command) (rest : List Command) : (s.accept c rest).response = s.response := rfl
@[simp] theorem State.accept_cfg (s : State) (c : Command) (rest : List Command) : (s.accept c rest).cfg = s.cfg := rfl
@[simp] theorem State.accept_draws (s : State) (c : Command) (rest : List Command) : (s.accept c rest).draws = s.draws := rfl

@[simp] theorem State.failReset_mem (s : State) : s.failReset.mem = Memory.ofCells (Config.freeCells s.draws) := rfl
@[simp] theorem State.failReset_divider (s : State) : s.failReset.divider = Config.freeDivider s.draws := rfl
@[simp] theorem State.failReset_keys (s : State) : s.failReset.keys = Config.freeKeys s.draws := rfl
@[simp] theorem State.failReset_bc (s : State) : s.failReset.bc = Config.freeBank s.draws := rfl
@[simp] theorem State.failReset_failed (s : State) : s.failReset.failed = true := rfl
@[simp] theorem State.failReset_inbox (s : State) : s.failReset.inbox = s.inbox := rfl
@[simp] theorem State.failReset_port (s : State) : s.failReset.port = s.port := rfl
@[simp] theorem State.failReset_romIn (s : State) : s.failReset.romIn = s.romIn := rfl
@[simp] theorem State.failReset_response (s : State) : s.failReset.response = s.response := rfl
@[simp] theorem State.failReset_cfg (s : State) : s.failReset.cfg = s.cfg := rfl
@[simp] theorem State.failReset_draws (s : State) : s.failReset.draws = s.draws := rfl

/-! ### Raw reads after each update -/

/-- A raw read after a raw write. -/
@[simp] theorem State.load_store (s : State) (a : Addr) (v : Byte) (b : Addr) :
    (s.store a v).load b = if b = a then v else s.load b := by
  simp [State.load, BitVec.toNat_inj]

@[simp] theorem State.load_setDivider (s : State) (d : Word) (x : Addr) : (s.setDivider d).load x = s.load x := rfl
@[simp] theorem State.load_setKeys (s : State) (k : Byte) (x : Addr) : (s.setKeys k).load x = s.load x := rfl
@[simp] theorem State.load_setBc (s : State) (b : BankController) (x : Addr) : (s.setBc b).load x = s.load x := rfl
@[simp] theorem State.load_respond (s : State) (r : Response) (x : Addr) : (s.respond r).load x = s.load x := rfl
@[simp] theorem State.load_complete (s : State) (x : Addr) : s.complete.load x = s.load x := rfl
@[simp] theorem State.load_accept (s : State) (c : Command) (rest : List Command) (x : Addr) : (s.accept c rest).load x = s.load x := rfl

/-- Two states are equal when their fields are. -/
theorem State.eq_of_fields {s t : State} (h1 : s.mem = t.mem) (h2 : s.divider = t.divider) (h3 : s.keys = t.keys)
    (h4 : s.bc = t.bc) (h5 : s.failed = t.failed) (h6 : s.inbox = t.inbox) (h7 : s.port = t.port)
    (h8 : s.romIn = t.romIn) (h9 : s.response = t.response) (h10 : s.cfg = t.cfg) (h11 : s.draws = t.draws) :
    s = t := by
  cases s; cases t; simp_all

/-- The state with another port and response: what no operation reads. -/
def State.setIO (s : State) (p : Port) (r : Option Response) : State := { s with port := p, response := r }

/-! ### The end of an operation -/

/-- What an operation other than RESET does: FAILED was 0 and it reached its next state. -/
theorem State.serve_eq_next {s t u : State} : s.serve t = .next u ↔ s.failed = false ∧ t = u := by
  unfold State.serve
  cases s.failed <;> simp

@[simp] theorem State.serve_alive {s : State} (h : s.failed = false) (t : State) : s.serve t = .next t := by
  simp [State.serve, h]

@[simp] theorem State.serve_dead {s : State} (h : s.failed = true) (t : State) : s.serve t = .fault .blockFailed := by
  simp [State.serve, h]

end Sys2Proof.Machine
end

