-- ==== Sys2Proof/Laws/Bus.lean ====
section
/-! SUPPORT. What the chains and the DMA engine can do: which fields they leave alone, which bytes they write, and what
the value of a resolved read depends on. -/

namespace Sys2Proof.Machine

/-! ### Changes of MEM alone -/

/-- `t` differs from `s` in MEM at most. -/
abbrev MemOnly (s t : State) : Prop := ∃ m, t = { s with mem := m }

theorem MemOnly.refl (s : State) : MemOnly s s := ⟨s.mem, rfl⟩

theorem MemOnly.trans {s t u : State} (h : MemOnly s t) (k : MemOnly t u) : MemOnly s u := by
  obtain ⟨m, rfl⟩ := h
  obtain ⟨n, rfl⟩ := k
  exact ⟨n, rfl⟩

theorem MemOnly.store (s : State) (a : Addr) (v : Byte) : MemOnly s (s.store a v) := ⟨_, rfl⟩

/-- A change of MEM alone leaves every other field. -/
theorem MemOnly.fields {s t : State} (h : MemOnly s t) :
    t.divider = s.divider ∧ t.keys = s.keys ∧ t.bc = s.bc ∧ t.failed = s.failed ∧ t.inbox = s.inbox ∧
    t.port = s.port ∧ t.romIn = s.romIn ∧ t.response = s.response ∧ t.cfg = s.cfg ∧ t.draws = s.draws := by
  obtain ⟨m, rfl⟩ := h
  simp

theorem memOnly_raise (s : State) (k : Byte) : MemOnly s (s.raise k) := .store ..

theorem memOnly_clearMode (s : State) : MemOnly s s.clearMode := .store ..

theorem memOnly_writeP1 (s : State) (v : Byte) : MemOnly s (s.writeP1 v) := .store ..

theorem memOnly_storeMirror (s : State) (a : Addr) (v : Byte) : MemOnly s (s.storeMirror a v) :=
  (MemOnly.store ..).trans (.store ..)

theorem memOnly_storeEcho (s : State) (a : Addr) (v : Byte) : MemOnly s (s.storeEcho a v) :=
  (MemOnly.store ..).trans (.store ..)

theorem memOnly_storeDefault (s : State) (a : Addr) (v : Byte) : MemOnly s (s.storeDefault a v) := by
  unfold State.storeDefault
  split
  · exact memOnly_storeMirror ..
  split
  · exact memOnly_storeEcho ..
  · exact .store ..

theorem memOnly_dma (s : State) (page : Byte) : MemOnly s (s.dma page) := by
  unfold State.dma
  generalize List.range dmaLen = l
  induction l generalizing s with
  | nil => exact .refl s
  | cons i l ih => exact (MemOnly.store ..).trans (ih _)

theorem memOnly_writeDma (s : State) (page : Byte) : MemOnly s (s.writeDma page) := by
  unfold State.writeDma
  split
  · exact (memOnly_dma s page).trans (.store ..)
  · exact memOnly_dma s page

/-- The canonical form of MEM is kept by a raw write. -/
theorem wf_store {s : State} (h : Memory.wf s.mem) (a : Addr) (v : Byte) : Memory.wf (s.store a v).mem :=
  Memory.wf_write h a.isLt v

theorem wf_dma {s : State} (h : Memory.wf s.mem) (page : Byte) : Memory.wf (s.dma page).mem := by
  unfold State.dma
  generalize List.range dmaLen = l
  induction l generalizing s with
  | nil => exact h
  | cons i l ih => exact ih (wf_store h _ _)

theorem wf_writeDma {s : State} (h : Memory.wf s.mem) (page : Byte) : Memory.wf (s.writeDma page).mem := by
  unfold State.writeDma
  split
  · exact wf_store (wf_dma h page) _ _
  · exact wf_dma h page

theorem wf_storeDefault {s : State} (h : Memory.wf s.mem) (a : Addr) (v : Byte) :
    Memory.wf (s.storeDefault a v).mem := by
  unfold State.storeDefault
  split
  · exact wf_store (wf_store h _ _) _ _
  split
  · exact wf_store (wf_store h _ _) _ _
  · exact wf_store h _ _

/-! ### Bytes -/

theorem load_raise (s : State) (k : Byte) (x : Addr) :
    (s.raise k).load x = if x = s.cfg.ifAddr then s.load s.cfg.ifAddr ||| k else s.load x := by
  simp [State.raise]

theorem load_clearMode (s : State) (x : Addr) :
    s.clearMode.load x = if x = s.cfg.statAddr then s.load s.cfg.statAddr &&& 0xFC else s.load x := by
  simp [State.clearMode]

theorem load_storeMirror (s : State) (a : Addr) (v : Byte) (x : Addr) :
    (s.storeMirror a v).load x = if x = a ∨ x = a + 0x2000 then v else s.load x := by
  simp only [State.storeMirror, State.load_store, echoOff]
  by_cases h1 : x = a <;> by_cases h2 : x = a + 0x2000 <;> simp [h1, h2]

theorem load_storeEcho (s : State) (a : Addr) (v : Byte) (x : Addr) :
    (s.storeEcho a v).load x = if x = a ∨ x = a - 0x2000 then v else s.load x := by
  simp only [State.storeEcho, State.load_store, echoOff]
  by_cases h1 : x = a <;> by_cases h2 : x = a - 0x2000 <;> simp [h1, h2]

/-- The default arm (R127 to R129): the byte, its mirror where its address has one, and nothing else. -/
theorem load_storeDefault (s : State) (a : Addr) (v : Byte) (x : Addr) :
    (s.storeDefault a v).load x =
      if x = a ∨ inMirror a ∧ x = a + 0x2000 ∨ inEcho a ∧ x = a - 0x2000 then v else s.load x := by
  unfold State.storeDefault
  split
  · next h =>
    rw [load_storeMirror]
    have : ¬ inEcho a := by simp only [inMirror, inEcho] at *; omega
    have k : inMirror a = True := eq_true h
    simp only [k, eq_false this, true_and, false_and, or_false]
  split
  · next h1 h2 =>
    rw [load_storeEcho]
    have k : inEcho a = True := eq_true h2
    simp only [k, eq_false h1, true_and, false_and, false_or]
  · next h1 h2 =>
    rw [State.load_store]
    simp only [eq_false h1, eq_false h2, false_and, or_false]

/-! ### Resolved reads -/

/-- What a resolved read depends on (R100): BC, DIVIDER, KEYS, the parameters, the model's draw, and three bytes of
MEM: P1's, STAT's and the one at the address. -/
theorem busRead_congr {s t : State} {a : Addr} (hc : t.cfg = s.cfg) (hb : t.bc = s.bc) (hd : t.divider = s.divider)
    (hk : t.keys = s.keys) (hw : t.draws = s.draws) (hp : t.load s.cfg.p1Addr = s.load s.cfg.p1Addr)
    (hs : t.load s.cfg.statAddr = s.load s.cfg.statAddr) (ha : t.load a = s.load a) : t.busRead a = s.busRead a := by
  unfold State.busRead State.readP1 State.mode
  simp only [hc, hb, hd, hk, hw, hp, hs, ha]

/-- The response of a read is no part of what a read depends on. -/
@[simp] theorem busRead_respond (s : State) (r : Response) (a : Addr) : (s.respond r).busRead a = s.busRead a := rfl

/-! ### The DMA engine -/

/-- The address of a source byte, as a number: no page wraps (R171). -/
theorem source_toNat (page : Byte) {i : Nat} (hi : i < 160) :
    (pageAddr page + BitVec.ofNat 16 i).toNat = page.toNat * 256 + i := by
  have := page.isLt
  simp only [pageAddr, BitVec.toNat_add, BitVec.toNat_shiftLeft, BitVec.toNat_setWidth, BitVec.toNat_ofNat,
    Nat.shiftLeft_eq]
  omega

/-- The address of a destination byte, as a number (R171). -/
theorem dest_toNat {i : Nat} (hi : i < 160) : (oamLo + BitVec.ofNat 16 i).toNat = 0xFE00 + i := by
  have : oamLo.toNat = 0xFE00 := rfl
  simp only [BitVec.toNat_add, BitVec.toNat_ofNat, this]
  omega

/-- The copied prefix of a DMA: after `n` bytes, byte `i < n` of the sprite table is what the source address gave
before the DMA, and every other byte is as before (R171 to R173). -/
theorem load_dma_prefix {s : State} (hc : admitted s.cfg = true) (page : Byte) (n : Nat) (hn : n ≤ 160) :
    MemOnly s ((List.range n).foldl (dmaByte (pageAddr page)) s) ∧
    (∀ i < n, ((List.range n).foldl (dmaByte (pageAddr page)) s).load (oamLo + BitVec.ofNat 16 i) =
      s.dmaSource (pageAddr page + BitVec.ofNat 16 i)) ∧
    ∀ x, (∀ i < n, x ≠ oamLo + BitVec.ofNat 16 i) →
      ((List.range n).foldl (dmaByte (pageAddr page)) s).load x = s.load x := by
  induction n with
  | zero => exact ⟨.refl s, by simp, by simp⟩
  | succ n ih =>
    obtain ⟨hm, hin, hout⟩ := ih (by omega)
    rw [List.range_succ, List.foldl_append]
    generalize (List.range n).foldl (dmaByte (pageAddr page)) s = t at hm hin hout
    have hf := hm.fields
    have far : ∀ x : Addr, x.toNat < 0xFE00 ∨ 0xFE9F < x.toNat → t.load x = s.load x := fun x hx => hout x (by
      rintro i hi rfl
      rw [dest_toNat (by omega)] at hx
      omega)
    have hr := admitted_regs hc
    have hsrc : t.load (pageAddr page + BitVec.ofNat 16 n) = s.load (pageAddr page + BitVec.ofNat 16 n) :=
      hout _ (by
        intro i hi he
        have := congrArg BitVec.toNat he
        rw [source_toNat page (by omega), dest_toNat (by omega)] at this
        omega)
    have hread : t.dmaSource (pageAddr page + BitVec.ofNat 16 n) = s.dmaSource (pageAddr page + BitVec.ofNat 16 n) := by
      simp only [State.dmaSource, hf, hsrc]
      rw [busRead_congr hf.2.2.2.2.2.2.2.2.1 hf.2.2.1 hf.1 hf.2.1 hf.2.2.2.2.2.2.2.2.2 (far _ hr.p1.oam)
        (far _ hr.stat.oam) hsrc]
    simp only [List.foldl_cons, List.foldl_nil, dmaByte]
    refine ⟨hm.trans (.store ..), fun i hi => ?_, fun x hx => ?_⟩
    · rw [State.load_store]
      split
      · next he =>
        have := congrArg BitVec.toNat he
        rw [dest_toNat (by omega), dest_toNat (by omega)] at this
        rw [hread, show n = i by omega]
      · next he => exact hin i (by by_contra h; exact he (by rw [show i = n by omega]))
    · rw [State.load_store, if_neg (hx n (by omega))]
      exact hout x (fun i hi => hx i (by omega))

/-- What a DMA does (R171 to R173): 160 bytes of the sprite table from the source as it was before, nothing else. -/
theorem load_dma {s : State} (hc : admitted s.cfg = true) (page : Byte) (x : Addr) :
    (s.dma page).load x =
      if inOam x then s.dmaSource (pageAddr page + BitVec.ofNat 16 (x.toNat - 0xFE00)) else s.load x := by
  obtain ⟨-, hin, hout⟩ := load_dma_prefix hc page 160 (Nat.le_refl _)
  split
  · next h =>
    have := h.1
    have := h.2
    have he : x = oamLo + BitVec.ofNat 16 (x.toNat - 0xFE00) := by
      apply BitVec.eq_of_toNat_eq
      rw [dest_toNat (by omega)]
      omega
    have := hin (x.toNat - 0xFE00) (by omega)
    rw [← he] at this
    exact this
  · next h =>
    refine hout x ?_
    rintro i hi rfl
    apply h
    simp only [inOam, dest_toNat hi]
    omega

/-- What a WR at DMA_ADDR does: the copy, and the page in the register if DMA_REG_STORE (R126, R174). -/
theorem load_writeDma {s : State} (hc : admitted s.cfg = true) (page : Byte) (x : Addr) :
    (s.writeDma page).load x =
      if x = dmaAddr ∧ s.cfg.dmaRegStore = true then page
      else if inOam x then s.dmaSource (pageAddr page + BitVec.ofNat 16 (x.toNat - 0xFE00)) else s.load x := by
  unfold State.writeDma
  split
  · next h => rw [State.load_store, load_dma hc]; simp [h]
  · next h => rw [load_dma hc]; simp [h]

/-! ### Resolved writes -/

/-- What a resolved write can do (R120), as one of its arms; each names the arm's condition. -/
theorem busWrite_cases (s : State) (a : Addr) (v : Byte) :
    (inRom a ∧ s.busWrite a v = s.setBc (bcWriteRom s.bc a v)) ∨
    (inXram a ∧ s.busWrite a v = s.setBc (bcWriteRam s.bc a v)) ∨
    (a = s.cfg.p1Addr ∧ s.busWrite a v = s.writeP1 v) ∨
    (a = s.cfg.divAddr ∧ s.busWrite a v = s.setDivider 0) ∨
    (a = s.cfg.lcdcAddr ∧ v.getLsbD 7 = false ∧ s.busWrite a v = s.clearMode.storeDefault a v) ∨
    (a = dmaAddr ∧ s.busWrite a v = s.writeDma v) ∨
    (¬ inRom a ∧ ¬ inXram a ∧ a ≠ s.cfg.p1Addr ∧ a ≠ s.cfg.divAddr ∧ a ≠ dmaAddr ∧
      s.busWrite a v = s.storeDefault a v) := by
  unfold State.busWrite
  by_cases h1 : inRom a
  · exact .inl ⟨h1, if_pos h1⟩
  rw [if_neg h1]
  by_cases h2 : inXram a
  · exact .inr (.inl ⟨h2, if_pos h2⟩)
  rw [if_neg h2]
  by_cases h3 : a = s.cfg.p1Addr
  · exact .inr (.inr (.inl ⟨h3, if_pos h3⟩))
  rw [if_neg h3]
  by_cases h4 : a = s.cfg.divAddr
  · exact .inr (.inr (.inr (.inl ⟨h4, if_pos h4⟩)))
  rw [if_neg h4]
  by_cases h5 : a = s.cfg.lcdcAddr ∧ v.getLsbD 7 = false
  · exact .inr (.inr (.inr (.inr (.inl ⟨h5.1, h5.2, if_pos h5⟩))))
  rw [if_neg h5]
  by_cases h6 : a = dmaAddr
  · exact .inr (.inr (.inr (.inr (.inr (.inl ⟨h6, if_pos h6⟩)))))
  rw [if_neg h6]
  exact .inr (.inr (.inr (.inr (.inr (.inr ⟨h1, h2, h3, h4, h6, rfl⟩)))))

/-- The fields a resolved write keeps, and the parts of BC it keeps (R157, R159). -/
theorem busWrite_keeps (s : State) (a : Addr) (v : Byte) :
    (s.busWrite a v).keys = s.keys ∧ (s.busWrite a v).failed = s.failed ∧ (s.busWrite a v).inbox = s.inbox ∧
    (s.busWrite a v).port = s.port ∧ (s.busWrite a v).romIn = s.romIn ∧ (s.busWrite a v).response = s.response ∧
    (s.busWrite a v).cfg = s.cfg ∧ (s.busWrite a v).draws = s.draws ∧
    (s.busWrite a v).bc.variant = s.bc.variant ∧ (s.busWrite a v).bc.rom = s.bc.rom := by
  have mem : ∀ {t}, MemOnly s t → t.keys = s.keys ∧ t.failed = s.failed ∧ t.inbox = s.inbox ∧ t.port = s.port ∧
      t.romIn = s.romIn ∧ t.response = s.response ∧ t.cfg = s.cfg ∧ t.draws = s.draws ∧
      t.bc.variant = s.bc.variant ∧ t.bc.rom = s.bc.rom := fun h => by
    obtain ⟨m, rfl⟩ := h
    simp
  rcases busWrite_cases s a v with ⟨-, h⟩ | ⟨-, h⟩ | ⟨-, h⟩ | ⟨-, h⟩ | ⟨-, -, h⟩ | ⟨-, h⟩ | ⟨-, -, -, -, -, h⟩ <;>
    rw [h]
  · simp [bcWriteRom_keeps]
  · simp [bcWriteRam_keeps]
  · exact mem (memOnly_writeP1 ..)
  · simp
  · exact mem ((memOnly_clearMode s).trans (memOnly_storeDefault ..))
  · exact mem (memOnly_writeDma ..)
  · exact mem (memOnly_storeDefault ..)

/-- The DMA engine neither reads nor writes the port and the response. -/
theorem dma_setIO (s : State) (p : Port) (r : Option Response) (page : Byte) :
    (s.setIO p r).dma page = (s.dma page).setIO p r := by
  unfold State.dma
  generalize List.range dmaLen = l
  induction l generalizing s with
  | nil => rfl
  | cons i l ih => exact ih (dmaByte (pageAddr page) s i)

/-- A write of the DMA register neither reads nor writes the port and the response. -/
theorem writeDma_setIO (s : State) (p : Port) (r : Option Response) (v : Byte) :
    (s.setIO p r).writeDma v = (s.writeDma v).setIO p r := by
  unfold State.writeDma
  rw [dma_setIO, apply_ite (fun t => State.setIO t p r)]
  rfl

/-- A resolved write neither reads nor writes the port and the response. -/
theorem busWrite_setIO (s : State) (p : Port) (r : Option Response) (a : Addr) (v : Byte) :
    (s.setIO p r).busWrite a v = (s.busWrite a v).setIO p r := by
  unfold State.busWrite State.storeDefault
  rw [writeDma_setIO]
  simp only [apply_ite (fun t => State.setIO t p r)]
  rfl

/-- The canonical form of MEM is kept by a resolved write. -/
theorem wf_busWrite {s : State} (h : Memory.wf s.mem) (a : Addr) (v : Byte) : Memory.wf (s.busWrite a v).mem := by
  rcases busWrite_cases s a v with ⟨-, e⟩ | ⟨-, e⟩ | ⟨-, e⟩ | ⟨-, e⟩ | ⟨-, -, e⟩ | ⟨-, e⟩ | ⟨-, -, -, -, -, e⟩ <;>
    rw [e]
  · exact h
  · exact h
  · exact wf_store h _ _
  · exact h
  · exact wf_storeDefault (wf_store h _ _) _ _
  · exact wf_writeDma h v
  · exact wf_storeDefault h _ _

end Sys2Proof.Machine
end

