-- ==== Sys2Proof/Laws/Decode.lean ====
section
/-! SUPPORT. The fields of a command word, and what the classifications of the two chains answer. -/

namespace Sys2Proof

open Sys2Proof.Machine

/-- The number a field is. -/
theorem extract_toNat {n : Nat} (w : BitVec n) (lo len : Nat) :
    (w.extractLsb' lo len).toNat = w.toNat / 2 ^ lo % 2 ^ len := by
  rw [BitVec.extractLsb'_toNat, Nat.shiftRight_eq_div_pow]

/-- The number a command word is. -/
theorem command_toNat (op : BitVec 4) (a : Addr) (d : Word) :
    (command op a d).toNat = op.toNat * 2 ^ 32 + a.toNat * 2 ^ 16 + d.toNat := by
  have ha := a.isLt
  have hd := d.isLt
  rw [command, BitVec.toNat_cast, BitVec.toNat_append, BitVec.toNat_append, ← Nat.shiftLeft_add_eq_or_of_lt hd,
    ← Nat.shiftLeft_add_eq_or_of_lt ha, Nat.shiftLeft_eq, Nat.shiftLeft_eq]
  omega

@[simp] theorem cmdOp_command (op : BitVec 4) (a : Addr) (d : Word) : cmdOp (command op a d) = op := by
  apply BitVec.eq_of_toNat_eq
  rw [cmdOp, extract_toNat, command_toNat]
  omega

@[simp] theorem cmdA_command (op : BitVec 4) (a : Addr) (d : Word) : cmdA (command op a d) = a := by
  apply BitVec.eq_of_toNat_eq
  rw [cmdA, extract_toNat, command_toNat]
  omega

@[simp] theorem cmdD_command (op : BitVec 4) (a : Addr) (d : Word) : cmdD (command op a d) = d := by
  apply BitVec.eq_of_toNat_eq
  rw [cmdD, extract_toNat, command_toNat]
  omega

/-- A command word is its three fields. -/
theorem command_fields (w : CommandWord) : command (cmdOp w) (cmdA w) (cmdD w) = w := by
  apply BitVec.eq_of_toNat_eq
  rw [command_toNat, cmdOp, cmdA, cmdD, extract_toNat, extract_toNat, extract_toNat]
  have := w.isLt
  omega

/-- Decoding a word given by its fields. -/
@[simp] theorem decode_command (c : Config) (op : BitVec 4) (a : Addr) (d : Word) :
    decode c (command op a d) = decodeFields c op a d := by
  simp [decode]

/-! ### Operands narrower than their field -/

/-- A narrow operand read back from its field, whose bits above it are zero. -/
theorem field_of_operand {n m : Nat} (x : BitVec n) (h : n ≤ m) :
    (x.setWidth m).extractLsb' 0 n = x ∧ (x.setWidth m).extractLsb' n (m - n) = 0 := by
  have hx := x.isLt
  have hp : 2 ^ n ≤ 2 ^ m := Nat.pow_le_pow_right (by decide) h
  constructor <;> apply BitVec.eq_of_toNat_eq <;>
    rw [extract_toNat, BitVec.toNat_setWidth, Nat.mod_eq_of_lt (Nat.lt_of_lt_of_le hx hp)]
  · simp [Nat.mod_eq_of_lt hx]
  · simp [Nat.div_eq_of_lt hx]

/-- A field with zero bits above an operand is that operand widened. -/
theorem operand_of_field {n m : Nat} (d : BitVec m) (h : n ≤ m) (hz : d.extractLsb' n (m - n) = 0) :
    (d.extractLsb' 0 n).setWidth m = d := by
  have hd := d.isLt
  have hn : d.toNat / 2 ^ n % 2 ^ (m - n) = 0 := by rw [← extract_toNat, hz]; simp
  rw [Nat.mod_eq_of_lt] at hn
  · have hlt : d.toNat < 2 ^ n := (Nat.div_eq_zero_iff_lt (Nat.two_pow_pos n)).1 hn
    apply BitVec.eq_of_toNat_eq
    rw [BitVec.toNat_setWidth, extract_toNat]
    simp [Nat.mod_eq_of_lt hlt, Nat.mod_eq_of_lt hd]
  · apply Nat.div_lt_of_lt_mul
    rwa [← Nat.pow_add, Nat.add_sub_cancel' h]

/-- A field with only bit 0 free is that bit. -/
theorem bit_of_field (d : Word) (hz : d.extractLsb' 1 15 = 0) : d = if d.getLsbD 0 then 1 else 0 := by
  have hn : d.toNat / 2 ^ 1 % 2 ^ 15 = 0 := by rw [← extract_toNat, hz]; rfl
  have hd := d.isLt
  have h01 : d.toNat = 0 ∨ d.toNat = 1 := by omega
  rcases h01 with h | h
  · rw [show d = 0 from BitVec.eq_of_toNat_eq h]; decide
  · rw [show d = 1 from BitVec.eq_of_toNat_eq h]; decide

/-! ### The chains -/

/-- A property of both branches is one of the choice. -/
theorem ite_both {α : Type} {P : α → Prop} {p : Prop} [Decidable p] {x y : α} (hx : p → P x) (hy : ¬ p → P y) :
    P (if p then x else y) := by
  by_cases h : p
  · rw [if_pos h]; exact hx h
  · rw [if_neg h]; exact hy h

/-- `i` is a well-formed operation with the command word `w`. -/
abbrev standsFor (c : Config) (w : CommandWord) (i : Instr) : Prop := i.wf c = true ∧ encode c i = w

/-- What the read classification answers: a well-formed RD whose command word is this address's. -/
theorem classifyRead_spec (c : Config) (a : Addr) : standsFor c (encodeRd a) (classifyRead c a) := by
  unfold classifyRead
  refine ite_both (fun h => ⟨decide_eq_true h, rfl⟩) fun h1 => ?_
  refine ite_both (fun h => ⟨decide_eq_true h, rfl⟩) fun h2 => ?_
  refine ite_both (fun h => ⟨rfl, by rw [h]; rfl⟩) fun h3 => ?_
  refine ite_both (fun h => ⟨rfl, by rw [h]; rfl⟩) fun h4 => ?_
  refine ite_both (fun h => ⟨decide_eq_true h, rfl⟩) fun h5 => ?_
  refine ite_both (fun h => ⟨decide_eq_true h, rfl⟩) fun h6 => ?_
  refine ite_both (fun h => ⟨decide_eq_true h, rfl⟩) fun h7 => ?_
  exact ⟨decide_eq_true ⟨h1, h2, h3, h4, by simp only [between, inOam] at *; omega, h7⟩, rfl⟩

/-- What the write classification answers: a well-formed WR whose command word is this address's and value's. -/
theorem classifyWrite_spec (c : Config) (a : Addr) (v : Byte) :
    standsFor c (encodeWr a v) (classifyWrite c a v) := by
  unfold classifyWrite
  refine ite_both (fun h => ⟨decide_eq_true h, rfl⟩) fun h1 => ?_
  refine ite_both (fun h => ⟨decide_eq_true h, rfl⟩) fun h2 => ?_
  refine ite_both (fun h => ⟨rfl, by rw [h]; rfl⟩) fun h3 => ?_
  refine ite_both (fun h => ⟨rfl, by rw [h]; rfl⟩) fun h4 => ?_
  refine ite_both (fun h => ⟨decide_eq_true h.2, by rw [h.1]; rfl⟩) fun h5 => ?_
  refine ite_both (fun h => ⟨rfl, by rw [h]; rfl⟩) fun h6 => ?_
  refine ite_both (fun h => ⟨decide_eq_true h, rfl⟩) fun h7 => ?_
  refine ite_both (fun h => ⟨decide_eq_true h, rfl⟩) fun h8 => ?_
  refine ite_both (fun h => ⟨decide_eq_true h, rfl⟩) fun h9 => ?_
  refine ite_both (fun h => ⟨decide_eq_true h, rfl⟩) fun h10 => ?_
  refine ite_both (fun h => ⟨decide_eq_true h, rfl⟩) fun h11 => ?_
  refine ite_both (fun h => ⟨decide_eq_true h, rfl⟩) fun h12 => ?_
  refine ite_both (fun h => ⟨decide_eq_true h, rfl⟩) fun h13 => ?_
  refine ite_both (fun h => ⟨decide_eq_true h, rfl⟩) fun h14 => ?_
  refine ⟨decide_eq_true ⟨h1, h2, h3, h4, h5, h6, ?_, ?_⟩, rfl⟩ <;>
    simp only [between, inMirror, inEcho] at * <;> omega

/-- Every RD command decodes, to the arm of its address (R77). -/
theorem decode_encodeRd (c : Config) (a : Addr) : decode c (encodeRd a) = .ok (classifyRead c a) := by
  rw [encodeRd, decode_command]
  rfl

/-- Every WR command decodes, to the arm of its address and value (R78). -/
theorem decode_encodeWr (c : Config) (a : Addr) (v : Byte) :
    decode c (encodeWr a v) = .ok (classifyWrite c a v) := by
  have h := field_of_operand (n := 8) (m := 16) v (by decide)
  rw [encodeWr, decode_command]
  show requireZero _ _ = _
  rw [h.1]
  exact if_pos h.2

end Sys2Proof
end

