-- ==== Sys2Proof/Laws/Exec.lean ====
section
/-! SUPPORT. What each operation does, one equation for each constructor, and what every operation keeps. -/

namespace Sys2Proof.Machine

@[simp] theorem exec_rdRom (a : Addr) (s : State) :
    exec (.rdRom a) s = s.serve (s.respond (.byte (bcReadRom s.bc a))) := rfl

@[simp] theorem exec_rdXram (a : Addr) (s : State) :
    exec (.rdXram a) s = s.serve (s.respond (.byte (bcReadRam s.bc a))) := rfl

@[simp] theorem exec_rdP1 (s : State) :
    exec .rdP1 s = s.serve (s.respond (.byte s.readP1)) := rfl

@[simp] theorem exec_rdDiv (s : State) :
    exec .rdDiv s = s.serve (s.respond (.byte (s.divider.extractLsb' 8 8))) := rfl

@[simp] theorem exec_rdOam0 (a : Addr) (s : State) :
    exec (.rdOam0 a) s = s.serve (s.respond (.byte (s.readOam a))) := rfl

@[simp] theorem exec_rdOam1 (a : Addr) (s : State) :
    exec (.rdOam1 a) s = s.serve (s.respond (.byte (s.readOam a))) := rfl

@[simp] theorem exec_rdTile (a : Addr) (s : State) :
    exec (.rdTile a) s = s.serve (s.respond (.byte (s.readTile a))) := rfl

@[simp] theorem exec_rdMem (a : Addr) (s : State) :
    exec (.rdMem a) s = s.serve (s.respond (.byte (s.load a))) := rfl

@[simp] theorem exec_wrRom (a : Addr) (v : Byte) (s : State) :
    exec (.wrRom a v) s = s.serve (s.setBc (bcWriteRom s.bc a v)).complete := rfl

@[simp] theorem exec_wrXram (a : Addr) (v : Byte) (s : State) :
    exec (.wrXram a v) s = s.serve (s.setBc (bcWriteRam s.bc a v)).complete := rfl

@[simp] theorem exec_wrP1 (v : Byte) (s : State) :
    exec (.wrP1 v) s = s.serve (s.writeP1 v).complete := rfl

@[simp] theorem exec_wrDiv (v : Byte) (s : State) :
    exec (.wrDiv v) s = s.serve (s.setDivider 0x0000).complete := rfl

@[simp] theorem exec_wrLcdcOff (v : Byte) (s : State) :
    exec (.wrLcdcOff v) s = s.serve (s.clearMode.store s.cfg.lcdcAddr v).complete := rfl

@[simp] theorem exec_wrDma (v : Byte) (s : State) :
    exec (.wrDma v) s = s.serve (s.writeDma v).complete := rfl

@[simp] theorem exec_wrMir0 (a : Addr) (v : Byte) (s : State) :
    exec (.wrMir0 a v) s = s.serve (s.storeMirror a v).complete := rfl

@[simp] theorem exec_wrMir1 (a : Addr) (v : Byte) (s : State) :
    exec (.wrMir1 a v) s = s.serve (s.storeMirror a v).complete := rfl

@[simp] theorem exec_wrMir2 (a : Addr) (v : Byte) (s : State) :
    exec (.wrMir2 a v) s = s.serve (s.storeMirror a v).complete := rfl

@[simp] theorem exec_wrMir3 (a : Addr) (v : Byte) (s : State) :
    exec (.wrMir3 a v) s = s.serve (s.storeMirror a v).complete := rfl

@[simp] theorem exec_wrEcho0 (a : Addr) (v : Byte) (s : State) :
    exec (.wrEcho0 a v) s = s.serve (s.storeEcho a v).complete := rfl

@[simp] theorem exec_wrEcho1 (a : Addr) (v : Byte) (s : State) :
    exec (.wrEcho1 a v) s = s.serve (s.storeEcho a v).complete := rfl

@[simp] theorem exec_wrEcho2 (a : Addr) (v : Byte) (s : State) :
    exec (.wrEcho2 a v) s = s.serve (s.storeEcho a v).complete := rfl

@[simp] theorem exec_wrEcho3 (a : Addr) (v : Byte) (s : State) :
    exec (.wrEcho3 a v) s = s.serve (s.storeEcho a v).complete := rfl

@[simp] theorem exec_wrMem (a : Addr) (v : Byte) (s : State) :
    exec (.wrMem a v) s = s.serve (s.store a v).complete := rfl

@[simp] theorem exec_rdw (a : Addr) (s : State) :
    exec (.rdw a) s = s.serve (s.respond (.word (s.busRead (a + 1) ++ s.busRead a))) := rfl

@[simp] theorem exec_wrw (a : Addr) (w : Word) (s : State) :
    exec (.wrw a w) s = s.serve ((s.busWrite a (w.extractLsb' 0 8)).busWrite (a + 1) (w.extractLsb' 8 8)).complete := rfl

@[simp] theorem exec_urd (a : Addr) (s : State) :
    exec (.urd a) s = s.serve (s.respond (.byte (s.load a))) := rfl

@[simp] theorem exec_tick (n : Word) (s : State) :
    exec (.tick n) s = s.serve (s.tick n.toNat).complete := rfl

@[simp] theorem exec_oams0 (k : BitVec 6) (s : State) :
    exec (.oams0 k) s = s.oams k := rfl

@[simp] theorem exec_oams1 (k : BitVec 6) (s : State) :
    exec (.oams1 k) s = s.oams k := rfl

@[simp] theorem exec_rdt (a : Addr) (s : State) :
    exec (.rdt a) s = s.serve (s.respond (.tile (s.tileRows a))) := rfl

@[simp] theorem exec_rdbt (a : Addr) (m : TileMode) (s : State) :
    exec (.rdbt a m) s = s.serve (s.respond (.tile (s.tileRows (s.tileOfMap a m)))) := rfl

@[simp] theorem exec_key (k : Byte) (s : State) :
    exec (.key k) s = s.serve (s.updateKeys k).complete := rfl

@[simp] theorem exec_reset (b : Bool) (s : State) :
    exec (.reset b) s = .next (s.construct s.romIn b).complete := rfl

end Sys2Proof.Machine
end

