-- ==== Sys2Proof/Laws/Chain.lean ====
section
/-! SUPPORT. The arms of RD and WR against the two chains: which arm a well-formed operation is, and that the meaning of
the arm of an address is the chain at that address. -/

namespace Sys2Proof.Machine

/-- A well-formed arm of RD is the one its address classifies to: no two arms share an address (R77). -/
theorem classifyRead_of_wf {c : Config} (hc : admitted c = true) {i : Instr} {a : Addr} (hw : i.wf c = true)
    (he : i = .rdRom a ∨ i = .rdXram a ∨ i = .rdOam0 a ∨ i = .rdOam1 a ∨ i = .rdTile a ∨ i = .rdMem a ∨
      (i = .rdP1 ∧ a = c.p1Addr) ∨ (i = .rdDiv ∧ a = c.divAddr)) : classifyRead c a = i := by
  have hr := admitted_regs hc
  have hd := admitted_distinct hc
  have := hr.p1.rom; have := hr.p1.xram; have := hr.p1.oam; have := hr.p1.ram; have := hr.p1.tile
  have := hr.div.rom; have := hr.div.xram; have := hr.div.oam; have := hr.div.ram; have := hr.div.tile
  unfold classifyRead
  rcases he with rfl | rfl | rfl | rfl | rfl | rfl | ⟨rfl, rfl⟩ | ⟨rfl, rfl⟩
  · exact if_pos (of_decide_eq_true hw)
  · have h := of_decide_eq_true hw
    rw [if_neg (by simp only [inRom, inXram] at *; omega), if_pos h]
  · have h := of_decide_eq_true hw
    simp only [between] at h
    rw [if_neg (by simp only [inRom]; omega), if_neg (by simp only [inXram]; omega),
      if_neg (by rintro rfl; omega), if_neg (by rintro rfl; omega), if_pos h]
  · have h := of_decide_eq_true hw
    simp only [between] at h
    rw [if_neg (by simp only [inRom]; omega), if_neg (by simp only [inXram]; omega),
      if_neg (by rintro rfl; omega), if_neg (by rintro rfl; omega), if_neg (by simp only [between]; omega), if_pos h]
  · have h := of_decide_eq_true hw
    have ht := admitted_tile hc h
    have h' := h
    simp only [inTile] at h'
    rw [if_neg (by simp only [inRom]; omega), if_neg (by simp only [inXram]; omega),
      if_neg (by rintro rfl; omega), if_neg (by rintro rfl; omega), if_neg (by simp only [between]; omega),
      if_neg (by simp only [between]; omega), if_pos h]
  · obtain ⟨h1, h2, h3, h4, h5, h6⟩ := of_decide_eq_true hw
    simp only [inOam] at h5
    rw [if_neg h1, if_neg h2, if_neg h3, if_neg h4, if_neg (by simp only [between]; omega),
      if_neg (by simp only [between]; omega), if_neg h6]
  · rw [if_neg (by simp only [inRom]; omega), if_neg (by simp only [inXram]; omega), if_pos rfl]
  · rw [if_neg (by simp only [inRom]; omega), if_neg (by simp only [inXram]; omega),
      if_neg (fun h => hd.p1_div h.symm), if_pos rfl]

/-- A well-formed arm of WR is the one its address and value classify to (R78). -/
theorem classifyWrite_of_wf {c : Config} (hc : admitted c = true) {i : Instr} {a : Addr} {v : Byte} (hw : i.wf c = true)
    (he : i = .wrRom a v ∨ i = .wrXram a v ∨ (i = .wrP1 v ∧ a = c.p1Addr) ∨ (i = .wrDiv v ∧ a = c.divAddr) ∨
      (i = .wrLcdcOff v ∧ a = c.lcdcAddr) ∨ (i = .wrDma v ∧ a = dmaAddr) ∨
      i = .wrMir0 a v ∨ i = .wrMir1 a v ∨ i = .wrMir2 a v ∨ i = .wrMir3 a v ∨
      i = .wrEcho0 a v ∨ i = .wrEcho1 a v ∨ i = .wrEcho2 a v ∨ i = .wrEcho3 a v ∨ i = .wrMem a v) :
    classifyWrite c a v = i := by
  have hr := admitted_regs hc
  have hd := admitted_distinct hc
  have := hr.p1.rom; have := hr.p1.xram; have := hr.p1.oam; have := hr.p1.ram
  have := hr.div.rom; have := hr.div.xram; have := hr.div.oam; have := hr.div.ram
  have := hr.lcdc.rom; have := hr.lcdc.xram; have := hr.lcdc.oam; have := hr.lcdc.ram
  have hdma : dmaAddr.toNat = 0xFF46 := rfl
  unfold classifyWrite
  rcases he with rfl | rfl | ⟨rfl, rfl⟩ | ⟨rfl, rfl⟩ | ⟨rfl, rfl⟩ | ⟨rfl, rfl⟩ | rfl | rfl | rfl | rfl | rfl | rfl |
    rfl | rfl | rfl
  · exact if_pos (of_decide_eq_true hw)
  · have h := of_decide_eq_true hw
    rw [if_neg (by simp only [inRom, inXram] at *; omega), if_pos h]
  · rw [if_neg (by simp only [inRom]; omega), if_neg (by simp only [inXram]; omega), if_pos rfl]
  · rw [if_neg (by simp only [inRom]; omega), if_neg (by simp only [inXram]; omega),
      if_neg (fun h => hd.p1_div h.symm), if_pos rfl]
  · have h := of_decide_eq_true hw
    rw [if_neg (by simp only [inRom]; omega), if_neg (by simp only [inXram]; omega),
      if_neg (fun h => hd.p1_lcdc h.symm), if_neg (fun h => hd.div_lcdc h.symm), if_pos ⟨rfl, h⟩]
  · rw [if_neg (by simp only [inRom]; omega), if_neg (by simp only [inXram]; omega),
      if_neg (fun h => hd.p1_dma h.symm), if_neg (fun h => hd.div_dma h.symm),
      if_neg (fun h => hd.lcdc_dma h.1.symm), if_pos rfl]
  iterate 8
    · have h := of_decide_eq_true hw
      have h' := h
      simp only [between] at h'
      rw [if_neg (by simp only [inRom]; omega), if_neg (by simp only [inXram]; omega),
        if_neg (by rintro rfl; omega), if_neg (by rintro rfl; omega), if_neg (by rintro ⟨rfl, -⟩; omega),
        if_neg (by rintro rfl; omega)]
      simp only [between]
      repeat rw [if_neg (by omega)]
      rw [if_pos (by omega)]
  · obtain ⟨h1, h2, h3, h4, h5, h6, h7, h8⟩ := of_decide_eq_true hw
    rw [if_neg h1, if_neg h2, if_neg h3, if_neg h4, if_neg h5, if_neg h6]
    simp only [between, inMirror, inEcho] at *
    repeat rw [if_neg (by omega)]

/-- The meaning of the RD arm of an address is the read chain there (R100). -/
theorem exec_classifyRead {s : State} (hc : admitted s.cfg = true) (a : Addr) :
    exec (classifyRead s.cfg a) s = s.serve (s.respond (.byte (s.busRead a))) := by
  have hr := admitted_regs hc
  unfold classifyRead State.busRead
  by_cases h1 : inRom a
  · simp only [eq_true h1, if_true, exec_rdRom]
  by_cases h2 : inXram a
  · simp only [eq_true h2, eq_false h1, if_false, if_true, exec_rdXram]
  by_cases h3 : a = s.cfg.p1Addr
  · simp only [eq_true h3, eq_false h1, eq_false h2, if_false, if_true, exec_rdP1]
  by_cases h4 : a = s.cfg.divAddr
  · simp only [eq_true h4, eq_false h1, eq_false h2, eq_false h3, if_false, if_true, exec_rdDiv]
  simp only [eq_false h1, eq_false h2, eq_false h3, eq_false h4, if_false]
  by_cases h5 : inOam a
  · have h6 : ¬ inTile s.cfg a := fun h => by
      have := admitted_tile hc h
      simp only [inOam] at h5
      omega
    simp only [eq_true h5, eq_false h6, true_and, false_and, if_false]
    split
    · rw [exec_rdOam0, State.readOam]
    · split
      · rw [exec_rdOam1, State.readOam]
      · simp only [between, inOam] at *
        omega
  · rw [if_neg (by simp only [between, inOam] at *; omega), if_neg (by simp only [between, inOam] at *; omega)]
    simp only [eq_false h5, false_and, if_false]
    by_cases h6 : inTile s.cfg a
    · simp only [eq_true h6, true_and, if_true, exec_rdTile, State.readTile]
    · simp only [eq_false h6, false_and, if_false, exec_rdMem]

/-- The meaning of the WR arm of an address and a value is the write chain there (R120). -/
theorem exec_classifyWrite {s : State} (hc : admitted s.cfg = true) (a : Addr) (v : Byte) :
    exec (classifyWrite s.cfg a v) s = s.serve (s.busWrite a v).complete := by
  have hr := admitted_regs hc
  unfold classifyWrite State.busWrite
  by_cases h1 : inRom a
  · simp only [eq_true h1, if_true, exec_wrRom]
  by_cases h2 : inXram a
  · simp only [eq_true h2, eq_false h1, if_false, if_true, exec_wrXram]
  by_cases h3 : a = s.cfg.p1Addr
  · simp only [eq_true h3, eq_false h1, eq_false h2, if_false, if_true, exec_wrP1]
  by_cases h4 : a = s.cfg.divAddr
  · simp only [eq_true h4, eq_false h1, eq_false h2, eq_false h3, if_false, if_true, exec_wrDiv]
  simp only [eq_false h1, eq_false h2, eq_false h3, eq_false h4, if_false]
  by_cases h5 : a = s.cfg.lcdcAddr ∧ v.getLsbD 7 = false
  · rw [if_pos h5, if_pos h5, exec_wrLcdcOff, State.storeDefault]
    have hram := hr.lcdc.ram
    have hoam := hr.lcdc.oam
    rw [← h5.1] at hram
    rw [if_neg (by simp only [inMirror]; omega), if_neg (by simp only [inEcho]; omega), h5.1]
  rw [if_neg h5, if_neg h5]
  by_cases h6 : a = dmaAddr
  · rw [if_pos h6, if_pos h6, exec_wrDma]
  rw [if_neg h6, if_neg h6, State.storeDefault]
  by_cases hm : inMirror a
  · have hm' := hm
    simp only [inMirror] at hm
    simp only [between, eq_true hm', if_true]
    repeat' split
    all_goals first | (exfalso; omega) | simp only [exec_wrMir0, exec_wrMir1, exec_wrMir2, exec_wrMir3]
  by_cases he : inEcho a
  · have he' := he
    simp only [inEcho] at he
    simp only [between, eq_false hm, eq_true he', if_true, if_false]
    repeat' split
    all_goals first | (exfalso; omega) | simp only [exec_wrEcho0, exec_wrEcho1, exec_wrEcho2, exec_wrEcho3]
  · simp only [eq_false hm, eq_false he, if_false]
    simp only [between, inMirror, inEcho] at *
    repeat' split
    all_goals first | (exfalso; omega) | simp only [exec_wrMem]

/-- A well-formed WR arm runs the write chain at its address with its value, and its command word says which. -/
theorem exec_wf_write {s : State} (hc : admitted s.cfg = true) {i : Instr} (hw : i.wf s.cfg = true)
    (hi : isWrite i = true) (hn : ∀ a w, i ≠ .wrw a w) :
    ∃ a v, encode s.cfg i = encodeWr a v ∧ exec i s = s.serve (s.busWrite a v).complete := by
  suffices ∃ a v, encode s.cfg i = encodeWr a v ∧ classifyWrite s.cfg a v = i by
    obtain ⟨a, v, he, h⟩ := this
    exact ⟨a, v, he, by rw [← h]; exact exec_classifyWrite hc a v⟩
  cases i <;> first | (exfalso; revert hi; exact Bool.false_ne_true) | skip
  case wrw a w => exact absurd rfl (hn a w)
  all_goals exact ⟨_, _, rfl, classifyWrite_of_wf hc hw (by simp)⟩

end Sys2Proof.Machine
end

