-- ==== Sys2Proof/Laws/Display.lean ====
section
/-! SUPPORT. The display port's responses part by part: the bytes of a slot and the rows of a tile. -/

namespace Sys2Proof.Machine

/-- A bit of a disjunction over a list is set where a member sets it. -/
theorem getLsbD_foldl_or {α : Type} {w : Nat} (l : List α) (f : α → BitVec w) (x : BitVec w) (k : Nat) :
    (l.foldl (fun r j => r ||| f j) x).getLsbD k = (x.getLsbD k || l.any (fun j => (f j).getLsbD k)) := by
  induction l generalizing x with
  | nil => simp
  | cons j l ih => rw [List.foldl_cons, ih, BitVec.getLsbD_or, List.any_cons, Bool.or_assoc]

/-- Row `r` of a tile stands in bits 16r+15..16r of the response (R75, R181). -/
theorem tileRows_row (s : State) (a : Addr) {r : Nat} (hr : r < 8) :
    (s.tileRows a).extractLsb' (16 * r) 16 = s.tileRow a r := by
  apply BitVec.eq_of_getLsbD_eq
  intro i hi
  rw [BitVec.getLsbD_extractLsb', State.tileRows, getLsbD_foldl_or]
  generalize s.tileRow a = f
  have h0 : (0 : BitVec 128).getLsbD (16 * r + i) = false := BitVec.getLsbD_zero
  rw [h0, Bool.eq_iff_iff]
  simp only [hi, decide_true, Bool.true_and, Bool.false_or, List.any_eq_true, List.mem_range,
    BitVec.getLsbD_shiftLeft, BitVec.getLsbD_setWidth, Bool.and_eq_true, decide_eq_true_eq, Bool.not_eq_true',
    decide_eq_false_iff_not]
  constructor
  · rintro ⟨j, hj, ⟨-, h⟩, -, h'⟩
    have hlt := BitVec.lt_of_getLsbD h'
    obtain rfl : j = r := by omega
    rwa [show 16 * j + i - 16 * j = i by omega] at h'
  · intro h
    refine ⟨r, hr, ⟨by omega, by omega⟩, by omega, ?_⟩
    rwa [show 16 * r + i - 16 * r = i by omega]

/-- Byte `i` of a slot stands in bits 8i+7..8i of the response (R75, R180). -/
theorem slotBytes_byte (s : State) (k : BitVec 6) {i : Nat} (hi : i < 4) :
    (s.slotBytes k).extractLsb' (8 * i) 8 = s.load (slotAddr k + BitVec.ofNat 16 i) := by
  have h0 : slotAddr k + BitVec.ofNat 16 0 = slotAddr k := BitVec.add_zero _
  apply BitVec.eq_of_getLsbD_eq
  intro j hj
  rw [BitVec.getLsbD_extractLsb', State.slotBytes]
  simp only [hj, decide_true, Bool.true_and, BitVec.getLsbD_append]
  have h : i = 0 ∨ i = 1 ∨ i = 2 ∨ i = 3 := by omega
  rcases h with rfl | rfl | rfl | rfl
  · rw [h0]
    simp [hj]
  · simp [hj, show ¬ 8 + j < 8 by omega]
  · simp [hj, show ¬ 16 + j < 8 by omega, show 16 + j - 8 - 8 = j by omega, show ¬ 16 + j - 8 < 8 by omega]
  · simp [hj, show ¬ 24 + j < 8 by omega, show 24 + j - 8 - 8 - 8 = j by omega, show ¬ 24 + j - 8 < 8 by omega,
      show ¬ 24 + j - 8 - 8 < 8 by omega]

end Sys2Proof.Machine
end

