-- ==== Sys2Proof/Laws/Timer.lean ====
section
/-! SUPPORT. What the timer can do: a counted edge, a unit and a TICK, as changes of DIVIDER and of the bytes TIMA and
IF. -/

namespace Sys2Proof.Machine

/-- A counted edge writes MEM alone. -/
theorem memOnly_countEdge (s : State) : MemOnly s s.countEdge := by
  unfold State.countEdge
  split
  · exact (MemOnly.store ..).trans (.store ..)
  · exact .store ..

theorem wf_countEdge {s : State} (h : Memory.wf s.mem) : Memory.wf s.countEdge.mem := by
  unfold State.countEdge
  split
  · exact wf_store (wf_store h _ _) _ _
  · exact wf_store h _ _

/-- What a counted edge does to the bytes (R145). -/
theorem load_countEdge {s : State} (hc : admitted s.cfg = true) (x : Addr) :
    s.countEdge.load x =
      if x = s.cfg.timaAddr then
        (if s.load s.cfg.timaAddr = 0xFF then s.load s.cfg.tmaAddr else s.load s.cfg.timaAddr + 1)
      else if x = s.cfg.ifAddr ∧ s.load s.cfg.timaAddr = 0xFF then s.load s.cfg.ifAddr ||| ifTimer
      else s.load x := by
  have hd := admitted_distinct hc
  unfold State.countEdge
  split
  · next h =>
    rw [load_raise]
    simp only [State.store_cfg, State.load_store, hd.tima_if.symm, if_false, h]
    by_cases h1 : x = s.cfg.timaAddr
    · simp [h1, hd.tima_if]
    · by_cases h2 : x = s.cfg.ifAddr <;> simp [h1, h2, hd.tima_if.symm]
  · next h =>
    rw [State.load_store]
    simp only [h, if_false, and_false]

/-- A counted edge commutes with a change of DIVIDER. -/
theorem countEdge_setDivider (s : State) (d : Word) : (s.setDivider d).countEdge = s.countEdge.setDivider d := by
  unfold State.countEdge
  rw [apply_ite (fun t => State.setDivider t d)]
  rfl

/-- A unit is DIVIDER + 1, with a counted edge where the watched bit falls (R143, R144). -/
theorem tickUnit_eq (p : Nat) (s : State) :
    State.tickUnit p s =
      (if fallingEdge p s.divider (s.divider + 1) then s.countEdge else s).setDivider (s.divider + 1) := by
  unfold State.tickUnit
  rw [apply_ite (fun t => State.setDivider t (s.divider + 1)), ← countEdge_setDivider]
  rfl

/-- A TICK, whatever its mode: what it leaves alone. -/
theorem tickUnits_keeps (p n : Nat) (s : State) :
    ∃ d, MemOnly (s.setDivider d) (State.tickUnits p n s) := by
  induction n generalizing s with
  | zero => exact ⟨s.divider, s.mem, rfl⟩
  | succ n ih =>
    obtain ⟨d, m, h⟩ := ih (State.tickUnit p s)
    refine ⟨d, m, ?_⟩
    rw [State.tickUnits, h, tickUnit_eq]
    split
    · obtain ⟨m', h'⟩ := memOnly_countEdge s
      rw [h']
      rfl
    · rfl

theorem tick_keeps (s : State) (n : Nat) : ∃ d, MemOnly (s.setDivider d) (s.tick n) := by
  unfold State.tick
  split
  · exact tickUnits_keeps ..
  · exact ⟨_, _, rfl⟩

theorem wf_tickUnit {s : State} (h : Memory.wf s.mem) (p : Nat) : Memory.wf (State.tickUnit p s).mem := by
  rw [tickUnit_eq]
  split
  · exact wf_countEdge h
  · exact h

theorem wf_tickUnits {s : State} (h : Memory.wf s.mem) (p n : Nat) : Memory.wf (State.tickUnits p n s).mem := by
  induction n generalizing s with
  | zero => exact h
  | succ n ih => exact ih (wf_tickUnit h p)

theorem wf_tick {s : State} (h : Memory.wf s.mem) (n : Nat) : Memory.wf (s.tick n).mem := by
  unfold State.tick
  split
  · exact wf_tickUnits h ..
  · exact h

/-- One unit writes TIMA and IF at most, and of IF it can only set the timer request. -/
theorem load_tickUnit {s : State} (hc : admitted s.cfg = true) (p : Nat) :
    (∀ x, x ≠ s.cfg.timaAddr → x ≠ s.cfg.ifAddr → (State.tickUnit p s).load x = s.load x) ∧
    ((State.tickUnit p s).load s.cfg.ifAddr = s.load s.cfg.ifAddr ∨
      (State.tickUnit p s).load s.cfg.ifAddr = s.load s.cfg.ifAddr ||| ifTimer) := by
  have hd := admitted_distinct hc
  rw [tickUnit_eq]
  split
  · simp only [State.load_setDivider, load_countEdge hc]
    refine ⟨fun x h1 h2 => by simp [h1, h2], ?_⟩
    by_cases h : s.load s.cfg.timaAddr = 0xFF <;> simp only [h, hd.tima_if.symm, if_true, if_false, and_true,
      and_false, true_or, or_true]
  · simp

/-- The units write TIMA and IF at most, and of IF they can only set the timer request. -/
theorem load_tickUnits {s : State} (hc : admitted s.cfg = true) (p n : Nat) :
    (∀ x, x ≠ s.cfg.timaAddr → x ≠ s.cfg.ifAddr → (State.tickUnits p n s).load x = s.load x) ∧
    ((State.tickUnits p n s).load s.cfg.ifAddr = s.load s.cfg.ifAddr ∨
      (State.tickUnits p n s).load s.cfg.ifAddr = s.load s.cfg.ifAddr ||| ifTimer) := by
  induction n generalizing s with
  | zero => simp [State.tickUnits]
  | succ n ih =>
    have hcfg : (State.tickUnit p s).cfg = s.cfg := by
      rw [tickUnit_eq]
      split
      · simp [(memOnly_countEdge s).fields]
      · rfl
    have hu := load_tickUnit hc p
    have hi := ih (s := State.tickUnit p s) (by rwa [hcfg])
    rw [hcfg] at hi
    refine ⟨fun x h1 h2 => (hi.1 x h1 h2).trans (hu.1 x h1 h2), ?_⟩
    rw [State.tickUnits]
    rcases hi.2 with h | h <;> rcases hu.2 with k | k <;> simp [h, k, BitVec.or_assoc]

/-- A TICK writes TIMA and IF at most, and of IF it can only set the timer request (R140, R206). -/
theorem load_tick {s : State} (hc : admitted s.cfg = true) (n : Nat) :
    (∀ x, x ≠ s.cfg.timaAddr → x ≠ s.cfg.ifAddr → (s.tick n).load x = s.load x) ∧
    ((s.tick n).load s.cfg.ifAddr = s.load s.cfg.ifAddr ∨
      (s.tick n).load s.cfg.ifAddr = s.load s.cfg.ifAddr ||| ifTimer) := by
  unfold State.tick
  split
  · exact load_tickUnits hc ..
  · simp

/-- Units run one after the other are one run of their sum (R234). -/
theorem tickUnits_add (p n m : Nat) (s : State) :
    State.tickUnits p (n + m) s = State.tickUnits p m (State.tickUnits p n s) := by
  induction n generalizing s with
  | zero => simp [State.tickUnits]
  | succ n ih => rw [Nat.succ_add]; exact ih _

/-- A TICK reads neither the response nor the model's counter: it commutes with the end of an operation. -/
theorem tick_complete (s : State) (n : Nat) : s.complete.tick n = (s.tick n).complete := by
  have edge : ∀ s : State, s.complete.countEdge = s.countEdge.complete := fun s => by
    unfold State.countEdge
    rw [apply_ite State.complete]
    rfl
  have unit : ∀ (p : Nat) (s : State), State.tickUnit p s.complete = (State.tickUnit p s).complete := fun p s => by
    rw [tickUnit_eq, tickUnit_eq, edge]
    cases h : fallingEdge p s.divider (s.divider + 1) <;> simp only [State.complete_divider, h] <;> rfl
  have units : ∀ (p n : Nat) (s : State),
      State.tickUnits p n s.complete = (State.tickUnits p n s).complete := fun p n => by
    induction n with
    | zero => exact fun _ => rfl
    | succ n ih => exact fun s => by rw [State.tickUnits, unit, ih, State.tickUnits]
  unfold State.tick
  rw [apply_ite State.complete, State.load_complete, State.complete_cfg, units]
  rfl

/-- A TICK neither reads nor writes the port and the response. -/
theorem tick_setIO (s : State) (p : Port) (r : Option Response) (n : Nat) :
    (s.setIO p r).tick n = (s.tick n).setIO p r := by
  have edge : ∀ s : State, (s.setIO p r).countEdge = s.countEdge.setIO p r := fun s => by
    unfold State.countEdge
    rw [apply_ite (fun t => State.setIO t p r)]
    rfl
  have unit : ∀ (q : Nat) (s : State), State.tickUnit q (s.setIO p r) = (State.tickUnit q s).setIO p r := fun q s => by
    rw [tickUnit_eq, tickUnit_eq, edge]
    show State.setDivider (if fallingEdge q s.divider (s.divider + 1) = true then _ else _) (s.divider + 1) = _
    split <;> rfl
  have units : ∀ (q n : Nat) (s : State),
      State.tickUnits q n (s.setIO p r) = (State.tickUnits q n s).setIO p r := fun q n => by
    induction n with
    | zero => exact fun _ => rfl
    | succ n ih => exact fun s => by rw [State.tickUnits, unit, ih, State.tickUnits]
  unfold State.tick
  rw [apply_ite (fun t => State.setIO t p r), units]
  rfl

end Sys2Proof.Machine
end

