-- ==== Sys2Proof/Laws/Effect.lean ====
section
/-! SUPPORT. Once and for all what an operation can do when it answers a next state: a read, a bus write, a TICK, a KEY
or a RESET; and what a step can do. -/

namespace Sys2Proof.Machine

/-- OAMS answers a next state for a slot of the table, and only then (R180). -/
theorem oams_eq_next {s t : State} {k : BitVec 6} :
    s.oams k = .next t ↔ k.toNat < 40 ∧ s.failed = false ∧ s.respond (.slot (s.slotBytes k)) = t := by
  unfold State.oams
  split
  · next h => simp [State.serve_eq_next, h]
  · next h => simp [h]

/-- A read has one effect: the response (R51, R107). -/
theorem exec_read {i : Instr} {s t : State} (hi : isRead i = true) (h : exec i s = .next t) :
    s.failed = false ∧ ∃ r, t = s.respond r := by
  cases i <;> first | (exfalso; revert hi; exact Bool.false_ne_true) | skip
  case oams0 k =>
    obtain ⟨-, hf, rfl⟩ := oams_eq_next.1 h
    exact ⟨hf, _, rfl⟩
  case oams1 k =>
    obtain ⟨-, hf, rfl⟩ := oams_eq_next.1 h
    exact ⟨hf, _, rfl⟩
  all_goals
    obtain ⟨hf, rfl⟩ := State.serve_eq_next.1 h
    exact ⟨hf, _, rfl⟩

/-- No read depends on the response before it. -/
theorem exec_read_respond {i : Instr} (hi : isRead i = true) (s : State) (r : Response) :
    exec i (s.respond r) = exec i s := by
  cases i <;> first | (exfalso; revert hi; exact Bool.false_ne_true) | rfl

/-- What a bus write keeps, and what DIVIDER can become. -/
structure WriteKeeps (s t : State) : Prop where
  keys    : t.keys = s.keys
  failed  : t.failed = s.failed
  ports   : s.samePorts t
  draws   : t.draws = s.draws
  variant : t.bc.variant = s.bc.variant
  rom     : t.bc.rom = s.bc.rom
  divider : t.divider = s.divider ∨ t.divider = 0
  wf      : Memory.wf s.mem → Memory.wf t.mem

theorem WriteKeeps.trans {s t u : State} (h : WriteKeeps s t) (k : WriteKeeps t u) : WriteKeeps s u where
  keys := k.keys.trans h.keys
  failed := k.failed.trans h.failed
  ports := ⟨k.ports.inbox.trans h.ports.inbox, k.ports.port.trans h.ports.port, k.ports.romIn.trans h.ports.romIn,
    k.ports.cfg.trans h.ports.cfg⟩
  draws := k.draws.trans h.draws
  variant := k.variant.trans h.variant
  rom := k.rom.trans h.rom
  divider := k.divider.elim (fun e => e ▸ h.divider) .inr
  wf := fun m => k.wf (h.wf m)

/-- A change of MEM alone that keeps its canonical form is one. -/
theorem MemOnly.writeKeeps {s t : State} (h : MemOnly s t) (hw : Memory.wf s.mem → Memory.wf t.mem) :
    WriteKeeps s t := by
  obtain ⟨m, rfl⟩ := h
  exact ⟨rfl, rfl, ⟨rfl, rfl, rfl, rfl⟩, rfl, rfl, rfl, .inl rfl, hw⟩

theorem writeKeeps_busWrite (s : State) (a : Addr) (v : Byte) : WriteKeeps s (s.busWrite a v) := by
  obtain ⟨h1, h2, h3, h4, h5, -, h7, h8, h9, h10⟩ := busWrite_keeps s a v
  refine ⟨h1, h2, ⟨h3, h4, h5, h7⟩, h8, h9, h10, ?_, fun h => wf_busWrite h a v⟩
  rcases busWrite_cases s a v with ⟨-, e⟩ | ⟨-, e⟩ | ⟨-, e⟩ | ⟨-, e⟩ | ⟨-, -, e⟩ | ⟨-, e⟩ | ⟨-, -, -, -, -, e⟩ <;>
    rw [e]
  · exact .inl rfl
  · exact .inl rfl
  · exact .inl rfl
  · exact .inr rfl
  · exact .inl ((memOnly_clearMode s).trans (memOnly_storeDefault ..)).fields.1
  · exact .inl (memOnly_writeDma ..).fields.1
  · exact .inl (memOnly_storeDefault ..).fields.1

/-- What an operation of a bus write does, whatever its operands: a change that `WriteKeeps` bounds, completed. -/
theorem exec_write {i : Instr} {s t : State} (hi : isWrite i = true) (h : exec i s = .next t) :
    s.failed = false ∧ ∃ u, t = u.complete ∧ WriteKeeps s u := by
  cases i <;> first | (exfalso; revert hi; exact Bool.false_ne_true) | skip
  all_goals
    obtain ⟨hf, rfl⟩ := State.serve_eq_next.1 h
    refine ⟨hf, _, rfl, ?_⟩
  case wrRom a v =>
    obtain ⟨h1, h2, -⟩ := bcWriteRom_keeps s.bc a v
    exact ⟨rfl, rfl, ⟨rfl, rfl, rfl, rfl⟩, rfl, h1, h2, .inl rfl, id⟩
  case wrXram a v =>
    obtain ⟨h1, h2, -⟩ := bcWriteRam_keeps s.bc a v
    exact ⟨rfl, rfl, ⟨rfl, rfl, rfl, rfl⟩, rfl, h1, h2, .inl rfl, id⟩
  case wrDiv v => exact ⟨rfl, rfl, ⟨rfl, rfl, rfl, rfl⟩, rfl, rfl, rfl, .inr rfl, id⟩
  case wrP1 v => exact (memOnly_writeP1 s v).writeKeeps (fun m => wf_store m _ _)
  case wrLcdcOff v =>
    exact ((memOnly_clearMode s).trans (.store ..)).writeKeeps (fun m => wf_store (wf_store m _ _) _ _)
  case wrDma v => exact (memOnly_writeDma s v).writeKeeps (fun m => wf_writeDma m v)
  case wrMem a v => exact (MemOnly.store s a v).writeKeeps (fun m => wf_store m _ _)
  case wrw a w => exact (writeKeeps_busWrite ..).trans (writeKeeps_busWrite ..)
  case wrMir0 a v => exact (memOnly_storeMirror s a v).writeKeeps (fun m => wf_store (wf_store m _ _) _ _)
  case wrMir1 a v => exact (memOnly_storeMirror s a v).writeKeeps (fun m => wf_store (wf_store m _ _) _ _)
  case wrMir2 a v => exact (memOnly_storeMirror s a v).writeKeeps (fun m => wf_store (wf_store m _ _) _ _)
  case wrMir3 a v => exact (memOnly_storeMirror s a v).writeKeeps (fun m => wf_store (wf_store m _ _) _ _)
  case wrEcho0 a v => exact (memOnly_storeEcho s a v).writeKeeps (fun m => wf_store (wf_store m _ _) _ _)
  case wrEcho1 a v => exact (memOnly_storeEcho s a v).writeKeeps (fun m => wf_store (wf_store m _ _) _ _)
  case wrEcho2 a v => exact (memOnly_storeEcho s a v).writeKeeps (fun m => wf_store (wf_store m _ _) _ _)
  case wrEcho3 a v => exact (memOnly_storeEcho s a v).writeKeeps (fun m => wf_store (wf_store m _ _) _ _)

/-- An operation that is neither a read nor a bus write is a TICK, a KEY or a RESET. -/
theorem other_cases {i : Instr} (hr : isRead i = false) (hw : isWrite i = false) :
    (∃ n, i = .tick n) ∨ (∃ k, i = .key k) ∨ ∃ b, i = .reset b := by
  cases i
  case tick n => exact .inl ⟨n, rfl⟩
  case key k => exact .inr (.inl ⟨k, rfl⟩)
  case reset b => exact .inr (.inr ⟨b, rfl⟩)
  all_goals first | exact (Bool.false_ne_true hr.symm).elim | exact (Bool.false_ne_true hw.symm).elim

/-- KEY, as a change of KEYS and perhaps of MEM. -/
theorem updateKeys_keeps (s : State) (k : Byte) : MemOnly (s.setKeys k) (s.updateKeys k) := by
  unfold State.updateKeys
  split
  · exact .refl _
  · exact memOnly_raise ..

theorem wf_updateKeys {s : State} (h : Memory.wf s.mem) (k : Byte) : Memory.wf (s.updateKeys k).mem := by
  unfold State.updateKeys
  split
  · exact h
  · exact wf_store (s := s.setKeys k) h _ _

/-- What a RESET does: the rebuilt block, or the free values of a failed one (R220, R222). -/
theorem construct_cases (s : State) (rom : List Byte) (b : Bool) :
    (s.construct rom b = s.failReset ∧ ∀ bc, bcNew s.cfg rom ≠ .ok bc) ∨
    ∃ bc, bcNew s.cfg rom = .ok bc ∧
      s.construct rom b =
        { s with mem := resetMem s.cfg b, divider := resetDivider s.cfg b, keys := 0x00, bc := bc, failed := false } := by
  unfold State.construct
  cases h : bcNew s.cfg rom with
  | error e => exact .inl ⟨rfl, by simp⟩
  | ok bc => exact .inr ⟨bc, rfl, rfl⟩

/-- What RESET keeps: the ports and the parameters. -/
theorem construct_ports (s : State) (rom : List Byte) (b : Bool) : s.samePorts (s.construct rom b) := by
  rcases construct_cases s rom b with ⟨h, -⟩ | ⟨bc, -, h⟩ <;> rw [h] <;> exact ⟨rfl, rfl, rfl, rfl⟩

theorem wf_construct (s : State) (rom : List Byte) (b : Bool) : Memory.wf (s.construct rom b).mem := by
  rcases construct_cases s rom b with ⟨h, -⟩ | ⟨bc, -, h⟩ <;> rw [h]
  · exact Memory.wf_ofCells _
  · exact wf_resetMem _ _

/-- No operation changes the commands that wait, the current port, the sideband or the parameters. -/
theorem exec_ports {i : Instr} {s t : State} (h : exec i s = .next t) : s.samePorts t := by
  cases hr : isRead i
  · cases hw : isWrite i
    · rcases other_cases hr hw with ⟨n, rfl⟩ | ⟨k, rfl⟩ | ⟨b, rfl⟩
      · obtain ⟨-, rfl⟩ := State.serve_eq_next.1 h
        obtain ⟨d, m, e⟩ := tick_keeps s n.toNat
        rw [e]
        exact ⟨rfl, rfl, rfl, rfl⟩
      · obtain ⟨-, rfl⟩ := State.serve_eq_next.1 h
        obtain ⟨m, e⟩ := updateKeys_keeps s k
        rw [e]
        exact ⟨rfl, rfl, rfl, rfl⟩
      · cases h
        obtain ⟨h1, h2, h3, h4⟩ := construct_ports s s.romIn b
        exact ⟨h1, h2, h3, h4⟩
    · obtain ⟨-, u, rfl, hk⟩ := exec_write hw h
      obtain ⟨h1, h2, h3, h4⟩ := hk.ports
      exact ⟨h1, h2, h3, h4⟩
  · obtain ⟨-, r, rfl⟩ := exec_read hr h
    exact ⟨rfl, rfl, rfl, rfl⟩

/-- Every operation keeps the canonical form of MEM. -/
theorem wf_exec {i : Instr} {s t : State} (hm : Memory.wf s.mem) (h : exec i s = .next t) : Memory.wf t.mem := by
  cases hr : isRead i
  · cases hw : isWrite i
    · rcases other_cases hr hw with ⟨n, rfl⟩ | ⟨k, rfl⟩ | ⟨b, rfl⟩
      · obtain ⟨-, rfl⟩ := State.serve_eq_next.1 h
        exact wf_tick hm _
      · obtain ⟨-, rfl⟩ := State.serve_eq_next.1 h
        exact wf_updateKeys hm k
      · cases h
        exact wf_construct s s.romIn b
    · obtain ⟨-, u, rfl, hk⟩ := exec_write hw h
      exact hk.wf hm
  · obtain ⟨-, r, rfl⟩ := exec_read hr h
    exact hm

/-- What a step can do: nothing without a command, else one operation on the state that accepted it. -/
theorem step_cases {s t : State} (h : step s = .next t) :
    admitted s.cfg = true ∧
    ((s.inbox = [] ∧ t = s) ∨
      ∃ c rest i, s.inbox = c :: rest ∧ decode s.cfg c.word = .ok i ∧ exec i (s.accept c rest) = .next t) := by
  unfold step at h
  split at h
  · next ha =>
    refine ⟨ha, ?_⟩
    split at h
    · next hi => cases h; exact .inl ⟨hi, rfl⟩
    · next c rest hi =>
      split at h
      · cases h
      · next i hd => exact .inr ⟨c, rest, i, hi, hd, h⟩
  · cases h

end Sys2Proof.Machine
end

