-- ==== Sys2Proof/Laws/PerInstr.lean ====
section
/-! SUPPORT. Statements made for every operation as syntax, one lemma for each constructor. -/

namespace Sys2Proof.Laws.EncodingFields

open Sys2Proof

/-- The operation code of an operation (R73). -/
def opCode : Instr → Nat
  | .rdRom _ | .rdXram _ | .rdP1 | .rdDiv | .rdOam0 _ | .rdOam1 _ | .rdTile _ | .rdMem _ => 0x0
  | .wrRom _ _ | .wrXram _ _ | .wrP1 _ | .wrDiv _ | .wrLcdcOff _ | .wrDma _ => 0x1
  | .wrMir0 _ _ | .wrMir1 _ _ | .wrMir2 _ _ | .wrMir3 _ _ => 0x1
  | .wrEcho0 _ _ | .wrEcho1 _ _ | .wrEcho2 _ _ | .wrEcho3 _ _ | .wrMem _ _ => 0x1
  | .rdw _ => 0x2
  | .wrw _ _ => 0x3
  | .urd _ => 0x4
  | .tick _ => 0x5
  | .oams0 _ | .oams1 _ => 0x6
  | .rdt _ => 0x7
  | .rdbt _ _ => 0x8
  | .key _ => 0x9
  | .reset _ => 0xA

/-- The command word of an operation, whatever its operands, has its operation code and no unused bit set: decoding it
is reserved for neither (R73, R74, R76). -/
def Statement (i : Instr) : Prop :=
  ∀ c : Config, (cmdOp (encode c i)).toNat = opCode i ∧
    decode c (encode c i) ≠ .error .opcode ∧ decode c (encode c i) ≠ .error .unusedBits

/-- A word with this operation code that decodes. -/
theorem of_decode {c : Config} {w : CommandWord} {n : Nat} {i : Instr} (h : (cmdOp w).toNat = n)
    (k : decode c w = .ok i) :
    (cmdOp w).toNat = n ∧ decode c w ≠ .error .opcode ∧ decode c w ≠ .error .unusedBits := by
  rw [k]
  exact ⟨h, nofun, nofun⟩

/-- A command without an operand in d. -/
theorem of_first {c : Config} {op : BitVec 4} {a : Addr} {n : Nat} {i : Instr} (h : op.toNat = n)
    (k : decodeFields c op a 0 = .ok i) :
    (cmdOp (command op a 0)).toNat = n ∧ decode c (command op a 0) ≠ .error .opcode ∧
      decode c (command op a 0) ≠ .error .unusedBits :=
  of_decode (by rw [cmdOp_command, h]) (by rw [decode_command, k])

theorem of_rd (c : Config) (a : Addr) :
    (cmdOp (encodeRd a)).toNat = 0x0 ∧ decode c (encodeRd a) ≠ .error .opcode ∧
      decode c (encodeRd a) ≠ .error .unusedBits :=
  of_decode (by rw [encodeRd, cmdOp_command]; rfl) (decode_encodeRd c a)

theorem of_wr (c : Config) (a : Addr) (v : Byte) :
    (cmdOp (encodeWr a v)).toNat = 0x1 ∧ decode c (encodeWr a v) ≠ .error .opcode ∧
      decode c (encodeWr a v) ≠ .error .unusedBits :=
  of_decode (by rw [encodeWr, cmdOp_command]; rfl) (decode_encodeWr c a v)

theorem of_oams (c : Config) (k : BitVec 6) :
    (cmdOp (command 0x6 (k.setWidth 16) 0)).toNat = 0x6 ∧
      decode c (command 0x6 (k.setWidth 16) 0) ≠ .error .opcode ∧
      decode c (command 0x6 (k.setWidth 16) 0) ≠ .error .unusedBits := by
  have h := field_of_operand (n := 6) (m := 16) k (by decide)
  have e : decode c (command 0x6 (k.setWidth 16) 0) = classifySlot k := by
    rw [decode_command]
    show requireZero _ (classifySlot _) = _
    rw [h.1, requireZero, if_pos ⟨rfl, h.2⟩]
  refine ⟨by rw [cmdOp_command]; rfl, ?_, ?_⟩ <;> rw [e, classifySlot] <;> repeat' split
  all_goals nofun

theorem rdRom (a : Addr) : Statement (.rdRom a) := fun c => of_rd c a
theorem rdXram (a : Addr) : Statement (.rdXram a) := fun c => of_rd c a
theorem rdP1 : Statement .rdP1 := fun c => of_rd c c.p1Addr
theorem rdDiv : Statement .rdDiv := fun c => of_rd c c.divAddr
theorem rdOam0 (a : Addr) : Statement (.rdOam0 a) := fun c => of_rd c a
theorem rdOam1 (a : Addr) : Statement (.rdOam1 a) := fun c => of_rd c a
theorem rdTile (a : Addr) : Statement (.rdTile a) := fun c => of_rd c a
theorem rdMem (a : Addr) : Statement (.rdMem a) := fun c => of_rd c a
theorem wrRom (a : Addr) (v : Byte) : Statement (.wrRom a v) := fun c => of_wr c a v
theorem wrXram (a : Addr) (v : Byte) : Statement (.wrXram a v) := fun c => of_wr c a v
theorem wrP1 (v : Byte) : Statement (.wrP1 v) := fun c => of_wr c c.p1Addr v
theorem wrDiv (v : Byte) : Statement (.wrDiv v) := fun c => of_wr c c.divAddr v
theorem wrLcdcOff (v : Byte) : Statement (.wrLcdcOff v) := fun c => of_wr c c.lcdcAddr v
theorem wrDma (v : Byte) : Statement (.wrDma v) := fun c => of_wr c Machine.dmaAddr v
theorem wrMir0 (a : Addr) (v : Byte) : Statement (.wrMir0 a v) := fun c => of_wr c a v
theorem wrMir1 (a : Addr) (v : Byte) : Statement (.wrMir1 a v) := fun c => of_wr c a v
theorem wrMir2 (a : Addr) (v : Byte) : Statement (.wrMir2 a v) := fun c => of_wr c a v
theorem wrMir3 (a : Addr) (v : Byte) : Statement (.wrMir3 a v) := fun c => of_wr c a v
theorem wrEcho0 (a : Addr) (v : Byte) : Statement (.wrEcho0 a v) := fun c => of_wr c a v
theorem wrEcho1 (a : Addr) (v : Byte) : Statement (.wrEcho1 a v) := fun c => of_wr c a v
theorem wrEcho2 (a : Addr) (v : Byte) : Statement (.wrEcho2 a v) := fun c => of_wr c a v
theorem wrEcho3 (a : Addr) (v : Byte) : Statement (.wrEcho3 a v) := fun c => of_wr c a v
theorem wrMem (a : Addr) (v : Byte) : Statement (.wrMem a v) := fun c => of_wr c a v
theorem rdw (a : Addr) : Statement (.rdw a) := fun _ => of_first rfl rfl
theorem wrw (a : Addr) (w : Word) : Statement (.wrw a w) := fun _ =>
  of_decode (by rw [encode, cmdOp_command]; rfl) (by rw [encode, decode_command]; rfl)
theorem urd (a : Addr) : Statement (.urd a) := fun _ => of_first rfl rfl
theorem tick (n : Word) : Statement (.tick n) := fun _ => of_first rfl rfl
theorem oams0 (k : BitVec 6) : Statement (.oams0 k) := fun c => of_oams c k
theorem oams1 (k : BitVec 6) : Statement (.oams1 k) := fun c => of_oams c k
theorem rdt (a : Addr) : Statement (.rdt a) := fun _ => of_first rfl rfl
theorem rdbt (a : Addr) (m : TileMode) : Statement (.rdbt a m) := fun _ =>
  of_decode (i := .rdbt a m) (by rw [encode, cmdOp_command]; rfl) (by rw [encode, decode_command]; cases m <;> rfl)
theorem key (k : Byte) : Statement (.key k) := fun c => by
  have h := field_of_operand (n := 8) (m := 16) k (by decide)
  refine of_first rfl (i := .key k) ?_
  show requireZero _ _ = _
  rw [h.1, requireZero, if_pos ⟨rfl, h.2⟩]
theorem reset (b : Bool) : Statement (.reset b) := fun _ =>
  of_decode (i := .reset b) (by rw [encode, cmdOp_command]; rfl) (by rw [encode, decode_command]; cases b <;> rfl)

end Sys2Proof.Laws.EncodingFields
end

