-- ==== Sys2Proof/Tests/Slice0.lean ====
section
/-! SUPPORT. The tests of the model. Expected values come from spec/: the rules' own examples and the vectors of
95_test_vectors.md (V and S numbers), the words from the encoding of R73, R74, R76 and the rows of the opcode table. -/

namespace Sys2Proof.Tests

open Sys2Proof Sys2Proof.Machine

-- One theorem at a time: each of these many small kernel checks would otherwise wait in a thread of its own.
set_option Elab.async false

/-! ### Helpers -/

/-- The block after reset with these bytes stored. -/
def stored (l : List (Addr × Byte)) : State := { State.reset with mem := Memory.writeAll [] l }

/-- What `f` sees of the next state; `none` where the operation stops. -/
def look {α : Type} (o : Outcome) (f : State → α) : Option α :=
  match o with
  | .next s => some (f s)
  | .fault _ => none
  | .refused _ => none

/-- An outcome in which something is seen is a next state. -/
theorem next_of_look {o : Outcome} (h : look o (fun _ => ()) = some ()) : ∃ t, o = .next t := by
  cases o with
  | next t => exact ⟨t, rfl⟩
  | fault r => cases h
  | refused r => cases h

/-- The bytes of the next state at some addresses. -/
def bytes (o : Outcome) (l : List Addr) : Option (List Byte) := look o (fun s => l.map s.load)

/-- The response of the next state. -/
def answer (o : Outcome) : Option Response := (look o (fun s => s.response)).join

/-- The refusal of an outcome. -/
def refusal (o : Outcome) : Option Refusal :=
  match o with
  | .next _ => none
  | .fault _ => none
  | .refused r => some r

/-- The fault of an outcome. -/
def faultOf (o : Outcome) : Option Fault :=
  match o with
  | .next _ => none
  | .fault r => some r
  | .refused _ => none

/-- A block whose ROM image begins with these bytes. -/
def withRom (s : State) (l : List Byte) : State := { s with bc := { s.bc with rom := l } }

/-- An image whose header byte is `h`. -/
def image (h : Byte) : List Byte := List.replicate 0x0147 0x03 ++ [h]

/-- A configuration that breaks R7: two registers at one address. -/
def clash : Config := { defaultConfig with timaAddr := 0xFF0F }

/-! ### Well-formedness: a term that each check refuses -/

theorem test_wf_rdRom : Instr.wf defaultConfig (.rdRom 0x8000) = false := by decide +kernel
theorem test_wf_rdXram : Instr.wf defaultConfig (.rdXram 0xC000) = false := by decide +kernel
theorem test_wf_rdOam0 : Instr.wf defaultConfig (.rdOam0 0xFE80) = false := by decide +kernel
theorem test_wf_rdOam1 : Instr.wf defaultConfig (.rdOam1 0xFEA0) = false := by decide +kernel
theorem test_wf_rdTile : Instr.wf defaultConfig (.rdTile 0xA000) = false := by decide +kernel
theorem test_wf_rdMem : Instr.wf defaultConfig (.rdMem 0xFF04) = false := by decide +kernel
theorem test_wf_wrRom : Instr.wf defaultConfig (.wrRom 0x8000 0x01) = false := by decide +kernel
theorem test_wf_wrXram : Instr.wf defaultConfig (.wrXram 0x9FFF 0x01) = false := by decide +kernel
theorem test_wf_wrLcdcOff : Instr.wf defaultConfig (.wrLcdcOff 0x91) = false := by decide +kernel
theorem test_wf_wrMir0 : Instr.wf defaultConfig (.wrMir0 0xD000 0x01) = false := by decide +kernel
theorem test_wf_wrMir1 : Instr.wf defaultConfig (.wrMir1 0xD800 0x01) = false := by decide +kernel
theorem test_wf_wrMir2 : Instr.wf defaultConfig (.wrMir2 0xDC00 0x01) = false := by decide +kernel
theorem test_wf_wrMir3 : Instr.wf defaultConfig (.wrMir3 0xDE00 0x01) = false := by decide +kernel
theorem test_wf_wrEcho0 : Instr.wf defaultConfig (.wrEcho0 0xF000 0x01) = false := by decide +kernel
theorem test_wf_wrEcho1 : Instr.wf defaultConfig (.wrEcho1 0xF800 0x01) = false := by decide +kernel
theorem test_wf_wrEcho2 : Instr.wf defaultConfig (.wrEcho2 0xFC00 0x01) = false := by decide +kernel
theorem test_wf_wrEcho3 : Instr.wf defaultConfig (.wrEcho3 0xFE00 0x01) = false := by decide +kernel
theorem test_wf_wrMem : Instr.wf defaultConfig (.wrMem 0xFF40 0x11) = false := by decide +kernel
theorem test_wf_oams0 : Instr.wf defaultConfig (.oams0 32) = false := by decide +kernel
theorem test_wf_oams1 : Instr.wf defaultConfig (.oams1 40) = false := by decide +kernel

/-! ### Decoding: a word for every constructor, written from the encoding of the spec -/

theorem test_decode_rdRom : decode defaultConfig 0x07FFF0000 = .ok (.rdRom 0x7FFF) := by decide +kernel
theorem test_decode_rdXram : decode defaultConfig 0x0BFFF0000 = .ok (.rdXram 0xBFFF) := by decide +kernel
theorem test_decode_rdP1 : decode defaultConfig 0x0FF000000 = .ok .rdP1 := by decide +kernel
theorem test_decode_rdDiv : decode defaultConfig 0x0FF040000 = .ok .rdDiv := by decide +kernel
theorem test_decode_rdOam0 : decode defaultConfig 0x0FE7F0000 = .ok (.rdOam0 0xFE7F) := by decide +kernel
theorem test_decode_rdOam1 : decode defaultConfig 0x0FE9F0000 = .ok (.rdOam1 0xFE9F) := by decide +kernel
theorem test_decode_rdTile : decode defaultConfig 0x09FFF0000 = .ok (.rdTile 0x9FFF) := by decide +kernel
theorem test_decode_rdMem : decode defaultConfig 0x0FEA00000 = .ok (.rdMem 0xFEA0) := by decide +kernel
theorem test_decode_wrRom : decode defaultConfig 0x120000001 = .ok (.wrRom 0x2000 0x01) := by decide +kernel
theorem test_decode_wrXram : decode defaultConfig 0x1A0000012 = .ok (.wrXram 0xA000 0x12) := by decide +kernel
theorem test_decode_wrP1 : decode defaultConfig 0x1FF000020 = .ok (.wrP1 0x20) := by decide +kernel
theorem test_decode_wrDiv : decode defaultConfig 0x1FF04005A = .ok (.wrDiv 0x5A) := by decide +kernel
theorem test_decode_wrLcdcOff : decode defaultConfig 0x1FF400011 = .ok (.wrLcdcOff 0x11) := by decide +kernel
theorem test_decode_wrDma : decode defaultConfig 0x1FF4600C0 = .ok (.wrDma 0xC0) := by decide +kernel
theorem test_decode_wrMir0 : decode defaultConfig 0x1CFFF005A = .ok (.wrMir0 0xCFFF 0x5A) := by decide +kernel
theorem test_decode_wrMir1 : decode defaultConfig 0x1D7FF005A = .ok (.wrMir1 0xD7FF 0x5A) := by decide +kernel
theorem test_decode_wrMir2 : decode defaultConfig 0x1DBFF005A = .ok (.wrMir2 0xDBFF 0x5A) := by decide +kernel
theorem test_decode_wrMir3 : decode defaultConfig 0x1DDFF00AB = .ok (.wrMir3 0xDDFF 0xAB) := by decide +kernel
theorem test_decode_wrEcho0 : decode defaultConfig 0x1EFFF005A = .ok (.wrEcho0 0xEFFF 0x5A) := by decide +kernel
theorem test_decode_wrEcho1 : decode defaultConfig 0x1F7FF005A = .ok (.wrEcho1 0xF7FF 0x5A) := by decide +kernel
theorem test_decode_wrEcho2 : decode defaultConfig 0x1FBFF005A = .ok (.wrEcho2 0xFBFF 0x5A) := by decide +kernel
theorem test_decode_wrEcho3 : decode defaultConfig 0x1FDFF00AB = .ok (.wrEcho3 0xFDFF 0xAB) := by decide +kernel
theorem test_decode_wrMem : decode defaultConfig 0x1FF400091 = .ok (.wrMem 0xFF40 0x91) := by decide +kernel
theorem test_decode_rdw : decode defaultConfig 0x2E0000000 = .ok (.rdw 0xE000) := by decide +kernel
theorem test_decode_wrw : decode defaultConfig 0x3C09C1410 = .ok (.wrw 0xC09C 0x1410) := by decide +kernel
theorem test_decode_urd : decode defaultConfig 0x4FE000000 = .ok (.urd 0xFE00) := by decide +kernel
theorem test_decode_tick : decode defaultConfig 0x500B80000 = .ok (.tick 184) := by decide +kernel
theorem test_decode_oams0 : decode defaultConfig 0x6001F0000 = .ok (.oams0 31) := by decide +kernel
theorem test_decode_oams1 : decode defaultConfig 0x600270000 = .ok (.oams1 39) := by decide +kernel
theorem test_decode_rdt : decode defaultConfig 0x788000000 = .ok (.rdt 0x8800) := by decide +kernel
theorem test_decode_rdbt : decode defaultConfig 0x898000001 = .ok (.rdbt 0x9800 .signedIndex) := by decide +kernel
theorem test_decode_key : decode defaultConfig 0x900410000 = .ok (.key 0x41) := by decide +kernel
theorem test_decode_reset : decode defaultConfig 0xA00000001 = .ok (.reset true) := by decide +kernel

/-- R79: a reserved operation code, an unused bit of each field that has one, and a slot past the table. -/
theorem test_decode_reserved :
    decode defaultConfig 0xB00000000 = .error .opcode ∧
    decode defaultConfig 0xFFFFFFFFF = .error .opcode ∧
    decode defaultConfig 0x0C0000001 = .error .unusedBits ∧
    decode defaultConfig 0x1C0000100 = .error .unusedBits ∧
    decode defaultConfig 0x898000002 = .error .unusedBits ∧
    decode defaultConfig 0x600400000 = .error .unusedBits ∧
    decode defaultConfig 0x901000000 = .error .unusedBits ∧
    decode defaultConfig 0xA00010000 = .error .unusedBits ∧
    decode defaultConfig 0x600280000 = .error .slotIndex := by decide +kernel

/-- Where two rows of the opcode table meet, and the registers among them. -/
theorem test_decode_edges :
    decode defaultConfig 0x080000000 = .ok (.rdTile 0x8000) ∧
    decode defaultConfig 0x0A0000000 = .ok (.rdXram 0xA000) ∧
    decode defaultConfig 0x0FDFF0000 = .ok (.rdMem 0xFDFF) ∧
    decode defaultConfig 0x0FE000000 = .ok (.rdOam0 0xFE00) ∧
    decode defaultConfig 0x0FE800000 = .ok (.rdOam1 0xFE80) ∧
    decode defaultConfig 0x1BFFF0000 = .ok (.wrXram 0xBFFF 0x00) ∧
    decode defaultConfig 0x1DE0000CD = .ok (.wrMem 0xDE00 0xCD) ∧
    decode defaultConfig 0x1E0000000 = .ok (.wrEcho0 0xE000 0x00) ∧
    decode defaultConfig 0x1FE000055 = .ok (.wrMem 0xFE00 0x55) := by decide +kernel

theorem test_decodeTableWord : decodeTableWord 40 0x600270000 = some (.oams1 39) := by decide +kernel
theorem test_decodeTableWord_wide : decodeTableWord 40 0x1600270000 = none := by decide +kernel

/-! ### Reads -/

/-- V1, V3 and R162: the image, and 0xFF past its end. -/
theorem test_rdRom :
    answer (exec (.rdRom 0x0001) (withRom (stored []) [0x03, 0x0A])) = some (.byte 0x0A) ∧
    answer (exec (.rdRom 0x0002) (withRom (stored []) [0x03, 0x0A])) = some (.byte 0xFF) := by decide +kernel
/-- V4. -/
theorem test_rdXram : answer (exec (.rdXram 0xBFFF) (stored [(0xBFFF, 0x11)])) = some (.byte 0xFF) := by decide +kernel
/-- R193's examples, and neither group selected (R192). -/
theorem test_rdP1 :
    answer (exec .rdP1 { stored [(0xFF00, 0xEF)] with keys := 0x01 }) = some (.byte 0xEE) ∧
    answer (exec .rdP1 { stored [(0xFF00, 0xDF)] with keys := 0x80 }) = some (.byte 0xD7) ∧
    answer (exec .rdP1 { stored [(0xFF00, 0x30)] with keys := 0xFF }) = some (.byte 0x3F) := by decide +kernel
/-- V84: both groups selected, stored 0xCF, KEYS 0x81. -/
theorem test_rdP1_both :
    ([P1Both.dirFirst, .btnFirst, .andBoth].map fun p =>
      answer (exec .rdP1 { stored [(0xFF00, 0xCF)] with keys := 0x81, cfg := { defaultConfig with p1Both := p } })) =
    [some (.byte 0xCE), some (.byte 0xC7), some (.byte 0xC6)] := by decide +kernel
/-- V7. -/
theorem test_rdDiv : answer (exec .rdDiv { stored [] with divider := 0xABCD }) = some (.byte 0xAB) := by decide +kernel
/-- S7: blocked in mode 2, not in mode 1. -/
theorem test_rdOam0 :
    answer (exec (.rdOam0 0xFE10) (stored [(0xFE10, 0x77), (0xFF41, 0x82)])) = some (.byte 0xFF) ∧
    answer (exec (.rdOam0 0xFE10) (stored [(0xFE10, 0x77), (0xFF41, 0x81)])) = some (.byte 0x77) := by decide +kernel
/-- Program C, steps 6 and 11. -/
theorem test_rdOam1 :
    answer (exec (.rdOam1 0xFE9F) (stored [(0xFE9F, 0x28), (0xFF41, 0x83)])) = some (.byte 0xFF) ∧
    answer (exec (.rdOam1 0xFE9F) (stored [(0xFE9F, 0x28), (0xFF41, 0x81)])) = some (.byte 0x28) := by decide +kernel
/-- Program A, steps 8 and 10: tile memory is blocked in mode 3 and not in mode 2. -/
theorem test_rdTile :
    answer (exec (.rdTile 0x8000) (stored [(0x8000, 0x99), (0xFF41, 0x83)])) = some (.byte 0xFF) ∧
    answer (exec (.rdTile 0x8000) (stored [(0x8000, 0x99), (0xFF41, 0x82)])) = some (.byte 0x99) := by decide +kernel
/-- V10: 0xFEA0 is never blocked. -/
theorem test_rdMem : answer (exec (.rdMem 0xFEA0) (stored [(0xFEA0, 0x5A), (0xFF41, 0x83)])) = some (.byte 0x5A) := by
  decide +kernel
/-- V11 and V12. -/
theorem test_rdw :
    answer (exec (.rdw 0x7FFF) (withRom (stored [(0x8000, 0x99), (0xFF41, 0x83)]) [])) = some (.word 0xFFFF) ∧
    answer (exec (.rdw 0x7FFF) (withRom (stored [(0x8000, 0x99), (0xFF41, 0x80)]) [])) = some (.word 0x99FF) := by
  decide +kernel
/-- V13: the address wraps. -/
theorem test_rdw_wraps :
    answer (exec (.rdw 0xFFFF) (withRom (stored [(0xFFFF, 0x1F)]) [0x03])) = some (.word 0x031F) := by decide +kernel
/-- V8 and V9: raw at DIV and under the windows, never blocked. -/
theorem test_urd :
    answer (exec (.urd 0xFF04) { stored [] with divider := 0xABCD }) = some (.byte 0x00) ∧
    answer (exec (.urd 0xFE00) (stored [(0xFE00, 0x55), (0xFF41, 0x82)])) = some (.byte 0x55) := by decide +kernel

/-! ### Writes -/

/-- V20 and V21: with ROM_ONLY a write in a window changes nothing. -/
theorem test_wrRom : look (exec (.wrRom 0x2000 0x01) (stored [])) (fun s => (s.bc, s.mem)) =
    some ((stored []).bc, []) := by decide +kernel
theorem test_wrXram : look (exec (.wrXram 0xA000 0x12) (stored [])) (fun s => (s.bc, s.mem)) =
    some ((stored []).bc, []) := by decide +kernel
/-- V22 and V23. -/
theorem test_wrP1 :
    bytes (exec (.wrP1 0x00) (stored [(0xFF00, 0xFF)])) [0xFF00] = some [0xCF] ∧
    bytes (exec (.wrP1 0xFF) (stored [])) [0xFF00] = some [0x30] := by decide +kernel
/-- V24. -/
theorem test_wrDiv : look (exec (.wrDiv 0x99) { stored [(0xFF05, 0x07)] with divider := 0x1234 })
    (fun s => (s.divider, s.mem)) = some (0x0000, [(0xFF05, 0x07)]) := by decide +kernel
/-- V25. -/
theorem test_wrLcdcOff : bytes (exec (.wrLcdcOff 0x11) (stored [(0xFF41, 0x83)])) [0xFF41, 0xFF40] =
    some [0x80, 0x11] := by decide +kernel
/-- V34's copy, S6: the first byte, the last byte, the byte after the table, the register's own byte. -/
theorem test_wrDma : bytes (exec (.wrDma 0xC0) (stored [(0xC000, 0x77), (0xC09F, 0xC5), (0xC0A0, 0x11)]))
    [0xFE00, 0xFE9F, 0xFEA0, 0xFF46] = some [0x77, 0xC5, 0x00, 0x00] := by decide +kernel
/-- V76: page 0xFF copies the composed P1 and DIVIDER[15:8]. -/
theorem test_wrDma_registers : bytes (exec (.wrDma 0xFF)
    { stored [(0xFF00, 0xEF), (0xFF0F, 0xF1), (0xFF41, 0x80)] with divider := 0xAB12, keys := 0x01 })
    [0xFE00, 0xFE04, 0xFE0F, 0xFE41, 0xFE46] = some [0xEE, 0xAB, 0xF1, 0x80, 0x00] := by decide +kernel
theorem test_wrMir0 : bytes (exec (.wrMir0 0xC123 0x5A) (stored [])) [0xC123, 0xE123] = some [0x5A, 0x5A] := by
  decide +kernel
theorem test_wrMir1 : bytes (exec (.wrMir1 0xD000 0x5A) (stored [])) [0xD000, 0xF000] = some [0x5A, 0x5A] := by
  decide +kernel
theorem test_wrMir2 : bytes (exec (.wrMir2 0xD800 0x5A) (stored [])) [0xD800, 0xF800] = some [0x5A, 0x5A] := by
  decide +kernel
/-- V27. -/
theorem test_wrMir3 : bytes (exec (.wrMir3 0xDDFF 0xAB) (stored [])) [0xDDFF, 0xFDFF] = some [0xAB, 0xAB] := by
  decide +kernel
/-- R129's example. -/
theorem test_wrEcho0 : bytes (exec (.wrEcho0 0xE000 0x7E) (stored [])) [0xC000, 0xE000] = some [0x7E, 0x7E] := by
  decide +kernel
theorem test_wrEcho1 : bytes (exec (.wrEcho1 0xF000 0x7E) (stored [])) [0xD000, 0xF000] = some [0x7E, 0x7E] := by
  decide +kernel
theorem test_wrEcho2 : bytes (exec (.wrEcho2 0xF800 0x7E) (stored [])) [0xD800, 0xF800] = some [0x7E, 0x7E] := by
  decide +kernel
/-- V29. -/
theorem test_wrEcho3 : bytes (exec (.wrEcho3 0xFDFF 0xAB) (stored [])) [0xFDFF, 0xDDFF] = some [0xAB, 0xAB] := by
  decide +kernel
/-- V28 and V26: 0xDE00 has no echo; LCDC with bit 7 set keeps the mode. -/
theorem test_wrMem :
    bytes (exec (.wrMem 0xDE00 0xCD) (stored [])) [0xDE00, 0xFE00] = some [0xCD, 0x00] ∧
    bytes (exec (.wrMem 0xFF40 0x91) (stored [(0xFF41, 0x83)])) [0xFF40, 0xFF41] = some [0x91, 0x83] := by
  decide +kernel
/-- V33 and V36. -/
theorem test_wrw :
    bytes (exec (.wrw 0xDDFF 0xA1B2) (stored [])) [0xDDFF, 0xFDFF, 0xDE00, 0xFE00] =
      some [0xB2, 0xB2, 0xA1, 0x00] ∧
    bytes (exec (.wrw 0xFF40 0x8703) (stored [(0xFF41, 0x83)])) [0xFF40, 0xFF41] = some [0x03, 0x87] := by
  decide +kernel
/-- V34 and V35. -/
theorem test_wrw_effects :
    bytes (exec (.wrw 0xFF45 0xC0AA) (stored [(0xC000, 0x77)])) [0xFF45, 0xFE00, 0xFF46] = some [0xAA, 0x77, 0x00] ∧
    look (exec (.wrw 0xFF03 0xBEEF) { stored [] with divider := 0x1234 }) (fun s => (s.load 0xFF03, s.divider)) =
      some (0xEF, 0x0000) := by
  decide +kernel

/-! ### Timer, input, display port, RESET -/

/-- V55: two overflows in one TICK. V53: the source's own overflow. -/
theorem test_tick :
    look (exec (.tick 80) (stored [(0xFF07, 0x05), (0xFF05, 0xFE), (0xFF06, 0xFD)]))
      (fun s => (s.divider, s.load 0xFF05, s.load 0xFF0F)) = some (0x0050, 0xFD, 0x04) ∧
    look (exec (.tick 1) { stored [(0xFF07, 0x04), (0xFF05, 0xFF), (0xFF06, 0x42), (0xFF0F, 0xE1)] with divider := 0x03FF })
      (fun s => (s.divider, s.load 0xFF05, s.load 0xFF0F)) = some (0x0400, 0x42, 0xE5) := by decide +kernel
/-- V57 and V56: a disabled timer, and the wrap of DIVIDER as an edge. -/
theorem test_tick_wrap :
    look (exec (.tick 32) { stored [(0xFF07, 0x03), (0xFF05, 0x07)] with divider := 0xFFF0 })
      (fun s => (s.divider, s.load 0xFF05)) = some (0x0010, 0x07) ∧
    look (exec (.tick 1) { stored [(0xFF07, 0x05)] with divider := 0xFFFF })
      (fun s => (s.divider, s.load 0xFF05, s.load 0xFF0F)) = some (0x0000, 0x01, 0x00) := by decide +kernel
/-- V80, V85. -/
theorem test_key :
    look (exec (.key 0x81) (stored [(0xFF0F, 0xE1)])) (fun s => (s.keys, s.load 0xFF0F)) = some (0x81, 0xF1) ∧
    look (exec (.key 0x81) { stored [(0xFF0F, 0xE1)] with keys := 0x81 }) (fun s => (s.keys, s.load 0xFF0F)) =
      some (0x81, 0xE1) := by decide +kernel
/-- V87: a release raises nothing. -/
theorem test_key_release :
    look (exec (.key 0x00) { stored [(0xFF0F, 0xE1)] with keys := 0x81 }) (fun s => (s.keys, s.load 0xFF0F)) =
      some (0x00, 0xE1) := by decide +kernel
/-- V71: byte 0 in the low bits. -/
theorem test_oams0 : answer (exec (.oams0 0) (stored [(0xFE00, 0x5A), (0xFE01, 0x5B), (0xFE02, 0x58), (0xFE03, 0x59)])) =
    some (.slot 0x59585B5A) := by decide +kernel
/-- R180's example, in display mode 2 (V96). -/
theorem test_oams1 : answer (exec (.oams1 39)
    (stored [(0xFE9C, 10), (0xFE9D, 20), (0xFE9E, 30), (0xFE9F, 40), (0xFF41, 0x82)])) =
    some (.slot 0x281E140A) := by decide +kernel
/-- V97. -/
theorem test_oams_refused : refusal (exec (.oams1 40) (stored [])) = some .slotIndex := by decide +kernel
/-- V90, V91 and V92. -/
theorem test_pack :
    pack 0xFF 0x00 = 0x5555 ∧ pack 0x00 0xFF = 0xAAAA ∧ pack 0x80 0x00 = 0x0001 ∧ pack 0x01 0x00 = 0x4000 ∧
    pack 0x80 0x80 = 0x0003 ∧ pack 0x3C 0x7E = 0x2FF8 ∧ pack 0x0F 0xF0 = 0x55AA := by decide +kernel
/-- V93. -/
theorem test_rdt : answer (exec (.rdt 0x8000)
    (stored [(0x8000, 0xFF), (0x8002, 0x3C), (0x8003, 0x7E), (0x800E, 0x01), (0x800F, 0x80)])) =
    some (.tile (0x4002 <<< 112 ||| 0x2FF8 <<< 16 ||| 0x5555)) := by decide +kernel
/-- V94 and V95. -/
theorem test_rdbt :
    answer (exec (.rdbt 0x9800 .signedIndex) (stored [(0x9800, 0x80), (0x8800, 0x0F), (0x8801, 0xF0)])) =
      some (.tile 0x55AA) ∧
    answer (exec (.rdbt 0x9801 .unsignedBase) (stored [(0x9801, 0x01), (0x8010, 0xAA), (0x9010, 0x55)])) =
      some (.tile 0x1111) := by decide +kernel
theorem test_rdbt_signed :
    answer (exec (.rdbt 0x9801 .signedIndex) (stored [(0x9801, 0x01), (0x8010, 0xAA), (0x9010, 0x55)])) =
      some (.tile 0x4444) := by decide +kernel
/-- V100 and V101. -/
theorem test_reset :
    look (exec (.reset true) { stored [(0xC000, 0x77)] with romIn := image 0x00, keys := 0x11, failed := true })
      (fun s => (s.failed, s.keys, s.divider, [0xFF00, 0xFF41, 0xFF0F, 0xFF07, 0xC000, 0x0104].map s.load)) =
      some (false, 0x00, 0x0000, [0xFF, 0x81, 0xE1, 0x00, 0x00, 0x00]) ∧
    look (exec (.reset false) { stored [] with romIn := image 0x00 })
      (fun s => (s.failed, [0x0103, 0x0104, 0x0133, 0x0134, 0xFF00, 0xFF41].map s.load)) =
      some (false, [0x00, 0xCE, 0x3E, 0x00, 0x00, 0x00]) := by decide +kernel
/-- V102 and V103: an unsupported header byte, and an image too short to hold one. -/
theorem test_reset_fails :
    look (exec (.reset true) { stored [] with romIn := image 0xFC }) (fun s => s.failed) = some true ∧
    look (exec (.reset true) { stored [] with romIn := List.replicate 0x0100 0x00 }) (fun s => s.failed) = some true := by
  decide +kernel
/-- R204 after V102. -/
theorem test_failed_block : faultOf (exec (.rdRom 0x0000) { stored [] with failed := true }) = some .blockFailed := by
  decide +kernel

/-! ### The step -/

/-- State.reset is what a booted RESET over its image gives, but for the model's counter. -/
theorem test_reset_state :
    look (exec (.reset true) State.reset) (fun s => { s with draws := 0 }) = some State.reset := by decide +kernel
/-- Program A, step 1, as a step on the waiting command. -/
theorem test_step : bytes (step (State.reset.withFetchWord 40 0x3C0001234)) [0xC000, 0xE001] = some [0x34, 0x12] := by
  decide +kernel
theorem test_step_reserved :
    refusal (step (State.reset.withFetchWord 40 0x600280000)) = some (.reservedCommand .slotIndex) := by decide +kernel

/-! ### Witnesses: the hypotheses of each statement, met together. `State.reset` is alive and its configuration is
admitted. -/

/-- A block that waits with one command. -/
def waiting (w : CommandWord) : State := State.reset.present w

theorem test_alive : State.reset.failed = false ∧ admitted State.reset.cfg = true := ⟨rfl, admitted_default⟩

theorem test_witness_DecodeOfEncode :
    admitted defaultConfig = true ∧ Instr.wf defaultConfig (.oams1 39) = true ∧
    Instr.wf defaultConfig (.wrMir3 0xDDFF 0x01) = true := by decide +kernel
theorem test_witness_EncodeOfDecode :
    admitted defaultConfig = true ∧ decode defaultConfig 0x1DDFF00AB = .ok (.wrMir3 0xDDFF 0xAB) := by decide +kernel
theorem test_witness_StepRunsDecodedCommand :
    admitted (waiting 0x504000000).cfg = true ∧
    (waiting 0x504000000).inbox = [{ port := .cpu, word := 0x504000000, rom := State.reset.bc.rom }] ∧
    decode (waiting 0x504000000).cfg 0x504000000 = .ok (.tick 1024) := by decide +kernel
theorem test_witness_IdleStepChangesNothing : admitted State.reset.cfg = true ∧ State.reset.inbox = [] := by
  decide +kernel
theorem test_witness_UnadmittedConfigurationRefused : admitted { State.reset with cfg := clash }.cfg = false := by
  decide +kernel
theorem test_witness_ReservedCommandRefused :
    admitted (waiting 0xB00000000).cfg = true ∧
    (waiting 0xB00000000).inbox = [{ port := .cpu, word := 0xB00000000, rom := State.reset.bc.rom }] ∧
    ∀ i, decode (waiting 0xB00000000).cfg 0xB00000000 ≠ .ok i := by
  refine ⟨admitted_default, rfl, fun i => ?_⟩
  rw [show decode (waiting 0xB00000000).cfg 0xB00000000 = .error .opcode by decide +kernel]
  nofun
/-- A state with the invariant that is not the one after reset, and its next state. -/
theorem test_witness_StepKeepsInvariant :
    ({ waiting 0x1C0000012 with mem := [] } : State).Inv ∧
    ∃ t, step { waiting 0x1C0000012 with mem := [] } = .next t := by
  have empty (s : State) (h : s.mem = []) : s.echoes := fun a _ => by simp [State.load, h]
  exact ⟨⟨admitted_default, Memory.wf_nil, fun _ => empty _ rfl⟩, next_of_look (by decide +kernel)⟩
theorem test_witness_AliveOperationsComplete :
    State.reset.failed = false ∧ Instr.wf State.reset.cfg (.oams1 39) = true ∧
    Instr.wf State.reset.cfg (.wrMem 0xFFFF 0xFF) = true := by decide +kernel
theorem test_witness_DeadBlockServesOnlyReset :
    { State.reset with failed := true }.failed = true ∧ Instr.wf State.reset.cfg (.rdRom 0x7FFF) = true ∧
    isReset (.rdRom 0x7FFF) = false ∧ Instr.wf State.reset.cfg (.reset true) = true ∧ isReset (.reset true) = true := by
  decide +kernel
theorem test_witness_SlotPastTableRefused : 40 ≤ (40 : BitVec 6).toNat := by decide
theorem test_witness_WindowReadsDelegate : State.reset.failed = false := rfl
/-- Each selection, and each reading of both groups, with keys held. -/
theorem test_witness_P1ReadComposesKeys :
    ([0xFF, 0x2F, 0x1F, 0x0F].map fun v =>
      let s := { stored [(0xFF00, v)] with keys := 0x81 }
      (s.failed, (s.load s.cfg.p1Addr).getLsbD 4, (s.load s.cfg.p1Addr).getLsbD 5)) =
      [(false, true, true), (false, false, true), (false, true, false), (false, false, false)] ∧
    ∀ p, { State.reset with cfg := { defaultConfig with p1Both := p } }.cfg.p1Both = p :=
  ⟨by decide +kernel, fun _ => rfl⟩
theorem test_witness_DivReadsDividerUpperByte : State.reset.failed = false := rfl
/-- Every display mode. -/
theorem test_witness_DisplayModeBlocksReads :
    ([0x80, 0x81, 0x82, 0x83].map fun v =>
      let s := stored [(0xFF41, v)]
      (s.failed, (s.load s.cfg.statAddr).toNat % 4)) = [(false, 0), (false, 1), (false, 2), (false, 3)] := by
  decide +kernel
theorem test_witness_PlainReadsReturnStoredByte : State.reset.failed = false := rfl
/-- An address for every clause of the read chain, at its edges; each falls under the first clause it meets. -/
theorem test_witness_ReadChainFirstMatch :
    admitted State.reset.cfg = true ∧ State.reset.failed = false ∧
    (0x7FFF : Addr).toNat ≤ 0x7FFF ∧ 0xA000 ≤ (0xA000 : Addr).toNat ∧ (0xBFFF : Addr).toNat ≤ 0xBFFF ∧
    State.reset.cfg.p1Addr = 0xFF00 ∧ State.reset.cfg.divAddr = 0xFF04 ∧ 0xFE00 ≤ (0xFE9F : Addr).toNat ∧
    (State.reset.load State.reset.cfg.statAddr).toNat % 4 = 1 := by decide +kernel
theorem test_witness_WordReadIsTwoReads : admitted State.reset.cfg = true ∧ State.reset.failed = false := by
  decide +kernel
theorem test_witness_ReadsChangeNoState :
    isRead (.urd 0xC000) = true ∧ ∃ t, exec (.urd 0xC000) State.reset = .next t := ⟨rfl, _, rfl⟩
theorem test_witness_WindowWritesDelegate : State.reset.failed = false := rfl
theorem test_witness_P1WriteStoresSelectionBits : State.reset.failed = false := rfl
theorem test_witness_DivWriteClearsDivider : State.reset.failed = false := rfl
/-- Both values of bit 7. -/
theorem test_witness_DisplayOffClearsMode :
    admitted State.reset.cfg = true ∧ State.reset.failed = false ∧ (0x7F : Byte).getLsbD 7 = false ∧
    (0x80 : Byte).getLsbD 7 = true := by decide +kernel
/-- The four rows at an address, and both sides of 0xDE00. -/
theorem test_witness_WorkingRamWriteMirrors :
    admitted State.reset.cfg = true ∧ State.reset.failed = false ∧
    (0xC000 ≤ (0xDDFF : Addr).toNat ∧ (0xDDFF : Addr).toNat < 0xDE00) ∧
    0xDE00 ≤ (0xDE00 : Addr).toNat ∧ (0xDFFF : Addr).toNat ≤ 0xDFFF := by decide +kernel
/-- The four rows at an address, and both sides of 0xFE00. -/
theorem test_witness_EchoRamWriteMirrors :
    admitted State.reset.cfg = true ∧ State.reset.failed = false ∧
    (0xE000 ≤ (0xFDFF : Addr).toNat ∧ (0xFDFF : Addr).toNat < 0xFE00) ∧
    0xFE00 ≤ (0xFE00 : Addr).toNat ∧ (0xFE9F : Addr).toNat ≤ 0xFE9F := by decide +kernel
/-- The sprite table, tile memory and the registers. -/
theorem test_witness_PlainWriteStoresByte :
    let c := State.reset.cfg
    admitted c = true ∧ State.reset.failed = false ∧ (0xFE9F : Addr).toNat ≤ 0xFE9F ∧ inTile c 0x9FFF ∧
    (0xFF07 : Addr) ∈ [c.timaAddr, c.tmaAddr, c.tacAddr, c.ifAddr, c.statAddr] := by decide +kernel
/-- The write chain's clauses at their edges. -/
theorem test_witness_WriteChainFirstMatch :
    admitted State.reset.cfg = true ∧ State.reset.failed = false ∧
    State.reset.cfg.lcdcAddr = 0xFF40 ∧ (0x7F : Byte).toNat < 0x80 ∧ ¬ (0x80 : Byte).toNat < 0x80 ∧
    (0xDDFF : Addr).toNat < 0xDE00 ∧ ¬ (0xDE00 : Addr).toNat < 0xDE00 ∧
    0xE000 ≤ (0xE000 : Addr).toNat ∧ ¬ (0xFE00 : Addr).toNat < 0xFE00 := by decide +kernel
theorem test_witness_WordWriteIsTwoWrites : admitted State.reset.cfg = true ∧ State.reset.failed = false := by
  decide +kernel
/-- Both directions of the mirror, at an end of its range. -/
theorem test_witness_EchoReadsBackWrite :
    admitted State.reset.cfg = true ∧ State.reset.failed = false ∧
    (inMirror 0xDDFF ∧ (0xFDFF : Addr) = 0xDDFF + 0x2000) ∧ inEcho 0xE000 ∧ (0xC000 : Addr) = 0xE000 - 0x2000 := by
  decide +kernel
theorem test_witness_DisplayOffUnblocksReads :
    admitted State.reset.cfg = true ∧ (∃ t, exec (.wrLcdcOff 0x11) State.reset = .next t) ∧
    (0xFE00 : Addr) ≠ State.reset.cfg.lcdcAddr ∧ (0xFE00 : Addr) ≠ State.reset.cfg.statAddr :=
  ⟨admitted_default, ⟨_, rfl⟩, by decide +kernel, by decide +kernel⟩
/-- Both settings of DMA_SRC_PATH and of DMA_REG_STORE are admitted. -/
theorem test_witness_DmaCopiesPage :
    admitted State.reset.cfg = true ∧ State.reset.failed = false ∧ State.reset.cfg.dmaSrcPath = .bus ∧
    State.reset.cfg.dmaRegStore = false ∧
    admitted { defaultConfig with dmaSrcPath := .raw, dmaRegStore := true } = true := by decide +kernel
theorem test_witness_DmaOntoItself :
    admitted State.reset.cfg = true ∧ State.reset.failed = false ∧ State.reset.cfg.dmaSrcPath = .bus ∧
    inOam 0xFE9F := by decide +kernel
theorem test_witness_DisabledTickMovesDividerOnly :
    State.reset.failed = false ∧ (State.reset.load State.reset.cfg.tacAddr).getLsbD 2 = false := by decide +kernel
/-- Enabled, with each of the four selects. -/
theorem test_witness_EnabledTickUnit :
    ([0x04, 0x05, 0x06, 0x07].map fun v =>
      let s := stored [(0xFF07, v)]
      (admitted s.cfg, s.failed, (s.load s.cfg.tacAddr).getLsbD 2, (s.load s.cfg.tacAddr).toNat % 4)) =
    [(true, false, true, 0), (true, false, true, 1), (true, false, true, 2), (true, false, true, 3)] := by
  decide +kernel
theorem test_witness_FallingEdgeIsLowBitsZero : 15 < 16 := by decide
/-- Enabled, and V60's value, where the first overflow and whole periods lie in one TICK. -/
theorem test_witness_TickClosedForm :
    let s := stored [(0xFF07, 0x05), (0xFF05, 0xF0), (0xFF06, 0x80)]
    admitted s.cfg = true ∧ s.failed = false ∧ (s.load s.cfg.tacAddr).getLsbD 2 = true ∧
    0x80 + (0xF0 + 4095 - 256) % (256 - 0x80) = 0xEF := by decide +kernel
theorem test_witness_TickSplits :
    admitted State.reset.cfg = true ∧ State.reset.failed = false ∧
    (0x7FFF : Word).toNat + (0x8000 : Word).toNat < 65536 := by decide +kernel
/-- A press, and a key that stays pressed. -/
theorem test_witness_KeyPressRaisesRequest :
    let s := { State.reset with keys := 0x01 }
    s.failed = false ∧ (∃ i < 8, (0x81 : Byte).getLsbD i = true ∧ s.keys.getLsbD i = false) ∧
    ∀ i < 8, (0x01 : Byte).getLsbD i = true → s.keys.getLsbD i = true := by decide +kernel
theorem test_witness_SlotReadReturnsDescriptor : State.reset.failed = false ∧ (39 : BitVec 6).toNat < 40 := by
  decide +kernel
theorem test_witness_PackInterleavesPlanes : 7 < 8 := by decide
theorem test_witness_TileReadPacksRows : State.reset.failed = false ∧ 7 < 8 := by decide +kernel
theorem test_witness_MapReadFindsTile : State.reset.failed = false := rfl
/-- An address in the image and one past it. -/
theorem test_witness_RomOnlyCartridge :
    State.reset.failed = false ∧ State.reset.bc.variant = .romOnly ∧
    (0x0147 : Addr).toNat < State.reset.bc.rom.length ∧ State.reset.bc.rom.length ≤ (0x0148 : Addr).toNat := by
  decide +kernel
/-- One state for each clause: ROM_ONLY, and a collaborator's variant. -/
theorem test_witness_CartridgeWritesStayInPart :
    State.reset.failed = false ∧ State.reset.bc.variant = .romOnly ∧
    let s := State.reset.setBc { State.reset.bc with variant := .collab 1, xram := [0x00] }
    s.failed = false ∧ s.bc.variant = .collab 1 :=
  ⟨rfl, rfl, rfl, rfl⟩
theorem test_witness_ShadowedBytesOnlyByReset :
    admitted State.reset.cfg = true ∧ Instr.wf State.reset.cfg (.wrMem 0xFF80 0x42) = true ∧
    isReset (.wrMem 0xFF80 0x42) = false ∧ (∃ t, exec (.wrMem 0xFF80 0x42) State.reset = .next t) ∧
    inRom 0x7FFF ∧ inXram 0xBFFF ∧ (0xFF04 : Addr) = State.reset.cfg.divAddr :=
  ⟨admitted_default, by decide +kernel, rfl, ⟨_, rfl⟩, by decide, by decide, rfl⟩
theorem test_witness_P1RetainedBitsOnlyByReset :
    admitted State.reset.cfg = true ∧ Instr.wf State.reset.cfg (.wrP1 0x00) = true ∧ isReset (.wrP1 0x00) = false ∧
    ∃ t, exec (.wrP1 0x00) State.reset = .next t :=
  ⟨admitted_default, rfl, rfl, _, rfl⟩
/-- Each writer of DIVIDER changes it from 0x1234. -/
theorem test_witness_DividerWriters :
    let s := { State.reset with divider := 0x1234 }
    ∀ i ∈ [Instr.tick 1, .wrDiv 0x99, .wrw 0xFF03 0xBEEF],
      isReset i = false ∧ look (exec i s) (fun t => decide (t.divider ≠ s.divider)) = some true := by decide +kernel
theorem test_witness_KeysAndCartridgeWriters :
    isReset (.tick 1) = false ∧ (∃ t, exec (.tick 1) State.reset = .next t) ∧ ∀ k, Instr.tick 1 ≠ .key k :=
  ⟨rfl, ⟨_, rfl⟩, nofun⟩
/-- Both ways to raise a request. -/
theorem test_witness_RequestsClearedOnlyByWrites :
    admitted State.reset.cfg = true ∧
    (∀ i ∈ [Instr.tick 1, .key 0x01], isWrite i = false ∧ isReset i = false) ∧
    look (exec (.tick 1) { stored [(0xFF07, 0x04), (0xFF05, 0xFF)] with divider := 0x03FF })
      (fun t => (t.load 0xFF0F).getLsbD 2) = some true ∧
    look (exec (.key 0x01) (stored [])) (fun t => (t.load 0xFF0F).getLsbD 4) = some true := by decide +kernel
theorem test_witness_PortsAndConfigurationKept : ∃ t, exec (.rdt 0x8000) State.reset = .next t := ⟨_, rfl⟩
theorem test_witness_PseudoOperationsExpand : admitted State.reset.cfg = true ∧ State.reset.failed = false := by
  decide +kernel
/-- A supported header byte, and one that is not. -/
theorem test_witness_ResetSelectsVariant :
    admitted State.reset.cfg = true ∧ State.reset.romIn[State.reset.cfg.cartTypeOff]? = some 0x00 ∧
    ((0x00 : Byte), BcVariant.romOnly) ∈ State.reset.cfg.bcVariants := by decide +kernel
theorem test_witness_UnbootedResetValues :
    admitted State.reset.cfg = true ∧ look (exec (.reset false) State.reset) (fun t => t.failed) = some false := by
  decide +kernel
/-- With an extra boot value, admitted. -/
theorem test_witness_BootedResetValues :
    let c := { defaultConfig with bootTableExtra := [(0xFF07, 0xF8), (0xFF07, 0xF9)] }
    admitted c = true ∧ look (exec (.reset true) { State.reset with cfg := c })
      (fun t => (t.failed, t.load 0xFF07)) = some (false, 0xF9) := by decide +kernel
theorem test_witness_ResetForgetsOldState :
    State.reset.samePorts { State.reset with keys := 0xFF, divider := 0x1234 } ∧
    { State.reset with keys := 0xFF, divider := 0x1234 }.draws = State.reset.draws :=
  ⟨⟨rfl, rfl, rfl, rfl⟩, rfl⟩

end Sys2Proof.Tests
end

section
/-!
Proofs about reads on the bus: what RD responds in each window, and what it leaves unchanged.
-/
namespace Sys2Proof.Machine

/-- Settles O16: a block that has not failed serves the read, and serving it stores the BankController's byte as the
response of the same state (R101, R102). -/
theorem windowReadsDelegate : Obligations.WindowReadsDelegate := by
  intro s a alive
  constructor
  · rw [exec_rdRom, State.serve_alive alive, State.respond]
  · rw [exec_rdXram, State.serve_alive alive, State.respond]

end Sys2Proof.Machine
end

section
/-!
Proofs about writes on the bus: the plain store, the two mirrored stores, and the write of LCDC that turns the display
off.
-/
namespace Sys2Proof.Machine

/-! ### The end of a write that changes MEM alone -/

/-- A change of MEM alone, completed, is what `onlyMemory` allows. -/
theorem MemOnly.onlyMemory_complete {s u : State} (h : MemOnly s u) : s.onlyMemory u.complete := by
  obtain ⟨m, rfl⟩ := h
  exact ⟨rfl, rfl, rfl, rfl, rfl, rfl, rfl, rfl, rfl⟩

/-- A block that has not failed serves such a write: it ends with the bytes that the change left. -/
theorem MemOnly.serve_complete {s u : State} (alive : s.failed = false) (h : MemOnly s u) :
    ∃ t, s.serve u.complete = .next t ∧ s.onlyMemory t ∧ ∀ x, t.load x = u.load x :=
  ⟨u.complete, State.serve_alive alive _, h.onlyMemory_complete, State.load_complete u⟩

/-- WR.MEM stores the byte at its address and changes nothing else. -/
theorem exec_wrMem_stores {s : State} (alive : s.failed = false) (a : Addr) (v : Byte) :
    ∃ t, exec (.wrMem a v) s = .next t ∧ s.onlyMemory t ∧ ∀ x, t.load x = if x = a then v else s.load x := by
  obtain ⟨t, run, only, bytes⟩ := MemOnly.serve_complete alive (.store s a v)
  exact ⟨t, run, only, fun x => (bytes x).trans (State.load_store s a v x)⟩

/-! ### Where the plain store is the arm of WR -/

/-- Where no other arm of the write chain matches, WR is the plain store (R78). -/
theorem decode_encodeWr_plain {c : Config} (hc : admitted c = true) {a : Addr} {v : Byte} (h : writesPlain c a v) :
    decode c (encodeWr a v) = .ok (.wrMem a v) := by
  rw [decode_encodeWr, classifyWrite_of_wf hc (i := .wrMem a v) (decide_eq_true h) (by simp)]

/-- No arm of the write chain but the default matches outside the windows, the mirrored range and echo RAM, at an
address that is no register with an arm of its own. -/
theorem writesPlain_of_outside {c : Config} {a : Addr} {v : Byte} (rom : 0x7FFF < a.toNat)
    (xram : a.toNat < 0xA000 ∨ 0xBFFF < a.toNat)
    (ram : a.toNat < 0xC000 ∨ 0xDE00 ≤ a.toNat ∧ a.toNat < 0xE000 ∨ 0xFDFF < a.toNat)
    (p1 : a ≠ c.p1Addr) (div : a ≠ c.divAddr) (dma : a ≠ dmaAddr)
    (lcdc : ¬ (a = c.lcdcAddr ∧ v.getLsbD 7 = false)) : writesPlain c a v := by
  refine ⟨?_, ?_, p1, div, lcdc, dma, ?_, ?_⟩
  · simp only [inRom]; omega
  · simp only [inXram]; omega
  · simp only [inMirror]; omega
  · simp only [inEcho]; omega

/-- A register takes the plain store unless it has an arm of its own: P1, DIV, the DMA trigger, and LCDC with bit 7
clear. -/
theorem writesPlain_of_register {c : Config} (hc : admitted c = true) {a : Addr} {v : Byte}
    (ha : a ∈ registerAddrs c) (p1 : a ≠ c.p1Addr) (div : a ≠ c.divAddr) (dma : a ≠ dmaAddr)
    (lcdc : ¬ (a = c.lcdcAddr ∧ v.getLsbD 7 = false)) : writesPlain c a v := by
  have out := admitted_outside hc a ha
  exact writesPlain_of_outside out.rom out.xram (out.ram.imp_right .inr) p1 div dma lcdc

/-- TIMA, TMA, TAC, IF and STAT take the plain store: they are none of the registers with an arm of their own (R7). -/
theorem writesPlain_of_plainRegister {c : Config} (hc : admitted c = true) {a : Addr} (v : Byte)
    (ha : a ∈ [c.timaAddr, c.tmaAddr, c.tacAddr, c.ifAddr, c.statAddr]) : writesPlain c a v := by
  have register : a ∈ registerAddrs c := by
    simp only [List.mem_cons, List.not_mem_nil, or_false] at ha
    rcases ha with rfl | rfl | rfl | rfl | rfl <;> simp [registerAddrs]
  have others : a ≠ c.p1Addr ∧ a ≠ c.divAddr ∧ a ≠ c.lcdcAddr ∧ a ≠ dmaAddr := by
    have distinct := (admitted_apart hc).1
    simp only [registerAddrs, List.nodup_cons, List.mem_cons, List.not_mem_nil, or_false, not_or] at distinct ha
    rcases ha with rfl | rfl | rfl | rfl | rfl <;> simp [distinct, eq_comm]
  obtain ⟨p1, div, lcdc, dma⟩ := others
  exact writesPlain_of_register hc register p1 div dma fun h => lcdc h.1

/-- In a range of R7 an address is no register, so it takes the plain store where no window and no mirror matches. -/
theorem writesPlain_of_range {c : Config} (hc : admitted c = true) {a : Addr} (v : Byte)
    (inside : ¬ OutsideRanges c a) (rom : 0x7FFF < a.toNat) (xram : a.toNat < 0xA000 ∨ 0xBFFF < a.toNat)
    (ram : a.toNat < 0xC000 ∨ 0xDE00 ≤ a.toNat ∧ a.toNat < 0xE000 ∨ 0xFDFF < a.toNat) : writesPlain c a v := by
  have noRegister : a ∉ registerAddrs c := fun h => inside (admitted_outside hc a h)
  simp only [registerAddrs, List.mem_cons, List.not_mem_nil, or_false, not_or] at noRegister
  obtain ⟨p1, div, -, -, -, -, lcdc, -, dma⟩ := noRegister
  exact writesPlain_of_outside rom xram ram p1 div dma fun h => lcdc h.1

/-- The top of working RAM takes the plain store. -/
theorem writesPlain_of_ramTop {c : Config} (hc : admitted c = true) {a : Addr} (v : Byte) (lo : 0xDE00 ≤ a.toNat)
    (hi : a.toNat ≤ 0xDFFF) : writesPlain c a v := by
  have inside : ¬ OutsideRanges c a := fun out => by have := out.ram; omega
  exact writesPlain_of_range hc v inside (by omega) (by omega) (by omega)

/-- The sprite table takes the plain store. -/
theorem writesPlain_of_inOam {c : Config} (hc : admitted c = true) {a : Addr} (v : Byte) (h : inOam a) :
    writesPlain c a v := by
  obtain ⟨lo, hi⟩ := h
  have inside : ¬ OutsideRanges c a := fun out => by have := out.oam; omega
  exact writesPlain_of_range hc v inside (by omega) (by omega) (by omega)

/-- Tile memory takes the plain store: it is apart from the windows and from working and echo RAM (R7). -/
theorem writesPlain_of_inTile {c : Config} (hc : admitted c = true) {a : Addr} (v : Byte) (h : inTile c a) :
    writesPlain c a v := by
  obtain ⟨rom, xram, ram, -⟩ := admitted_tile hc h
  have inside : ¬ OutsideRanges c a := fun out => by have := out.tile; have := h.1; have := h.2; omega
  exact writesPlain_of_range hc v inside rom xram (ram.imp_right .inr)

/-- Settles O30: the store is one raw write of MEM, and no earlier arm of the chain matches in the sprite table, in
tile memory or at the five registers. -/
theorem plainWriteStoresByte : Obligations.PlainWriteStoresByte := by
  intro s a v hc alive
  refine ⟨exec_wrMem_stores alive a v, ?_⟩
  rintro (oam | tile | register)
  · exact decode_encodeWr_plain hc (writesPlain_of_inOam hc v oam)
  · exact decode_encodeWr_plain hc (writesPlain_of_inTile hc v tile)
  · exact decode_encodeWr_plain hc (writesPlain_of_plainRegister hc v register)

/-! ### The mirrored stores -/

/-- The four rows of working RAM have one meaning: the store with its mirror above. -/
theorem exec_mirrorRow {i : Instr} {a : Addr} {v : Byte}
    (hi : i ∈ [Instr.wrMir0 a v, .wrMir1 a v, .wrMir2 a v, .wrMir3 a v]) (s : State) :
    exec i s = s.serve (s.storeMirror a v).complete := by
  simp only [List.mem_cons, List.not_mem_nil, or_false] at hi
  rcases hi with rfl | rfl | rfl | rfl <;> rfl

/-- The four rows of echo RAM have one meaning: the store with its mirror below. -/
theorem exec_echoRow {i : Instr} {a : Addr} {v : Byte}
    (hi : i ∈ [Instr.wrEcho0 a v, .wrEcho1 a v, .wrEcho2 a v, .wrEcho3 a v]) (s : State) :
    exec i s = s.serve (s.storeEcho a v).complete := by
  simp only [List.mem_cons, List.not_mem_nil, or_false] at hi
  rcases hi with rfl | rfl | rfl | rfl <;> rfl

/-- The four rows of working RAM cover the mirrored range. -/
theorem decode_mirrorRow {c : Config} (hc : admitted c = true) {a : Addr} (v : Byte) (h : inMirror a) :
    ∃ i ∈ [Instr.wrMir0 a v, .wrMir1 a v, .wrMir2 a v, .wrMir3 a v], decode c (encodeWr a v) = .ok i := by
  obtain ⟨lo, hi⟩ := h
  have cover : between 0xC000 0xCFFF a ∨ between 0xD000 0xD7FF a ∨ between 0xD800 0xDBFF a ∨
      between 0xDC00 0xDDFF a := by
    simp only [between]; omega
  rw [decode_encodeWr]
  rcases cover with row | row | row | row
  · exact ⟨.wrMir0 a v, by simp, congrArg _ (classifyWrite_of_wf hc (decide_eq_true row) (by simp))⟩
  · exact ⟨.wrMir1 a v, by simp, congrArg _ (classifyWrite_of_wf hc (decide_eq_true row) (by simp))⟩
  · exact ⟨.wrMir2 a v, by simp, congrArg _ (classifyWrite_of_wf hc (decide_eq_true row) (by simp))⟩
  · exact ⟨.wrMir3 a v, by simp, congrArg _ (classifyWrite_of_wf hc (decide_eq_true row) (by simp))⟩

/-- The four rows of echo RAM cover its range. -/
theorem decode_echoRow {c : Config} (hc : admitted c = true) {a : Addr} (v : Byte) (h : inEcho a) :
    ∃ i ∈ [Instr.wrEcho0 a v, .wrEcho1 a v, .wrEcho2 a v, .wrEcho3 a v], decode c (encodeWr a v) = .ok i := by
  obtain ⟨lo, hi⟩ := h
  have cover : between 0xE000 0xEFFF a ∨ between 0xF000 0xF7FF a ∨ between 0xF800 0xFBFF a ∨
      between 0xFC00 0xFDFF a := by
    simp only [between]; omega
  rw [decode_encodeWr]
  rcases cover with row | row | row | row
  · exact ⟨.wrEcho0 a v, by simp, congrArg _ (classifyWrite_of_wf hc (decide_eq_true row) (by simp))⟩
  · exact ⟨.wrEcho1 a v, by simp, congrArg _ (classifyWrite_of_wf hc (decide_eq_true row) (by simp))⟩
  · exact ⟨.wrEcho2 a v, by simp, congrArg _ (classifyWrite_of_wf hc (decide_eq_true row) (by simp))⟩
  · exact ⟨.wrEcho3 a v, by simp, congrArg _ (classifyWrite_of_wf hc (decide_eq_true row) (by simp))⟩

/-- Settles O28: the rows share one store with a mirror, they cover the range, and above it no arm but the default
matches. -/
theorem workingRamWriteMirrors : Obligations.WorkingRamWriteMirrors := by
  intro s a v hc alive
  refine ⟨fun i hi => ?_, fun lo hi => decode_mirrorRow hc v ⟨lo, hi⟩, fun lo hi => ?_⟩
  · obtain ⟨t, run, only, bytes⟩ := (memOnly_storeMirror s a v).serve_complete alive
    exact ⟨t, (exec_mirrorRow hi s).trans run, only, fun x => (bytes x).trans (load_storeMirror s a v x)⟩
  · obtain ⟨t, run, -, bytes⟩ := exec_wrMem_stores alive a v
    exact ⟨decode_encodeWr_plain hc (writesPlain_of_ramTop hc v lo hi), t, run, bytes⟩

/-- Settles O29: the rows share one store with a mirror, they cover echo RAM, and in the sprite table above it no arm
but the default matches. -/
theorem echoRamWriteMirrors : Obligations.EchoRamWriteMirrors := by
  intro s a v hc alive
  refine ⟨fun i hi => ?_, fun lo hi => decode_echoRow hc v ⟨lo, hi⟩, fun lo hi => ?_⟩
  · obtain ⟨t, run, only, bytes⟩ := (memOnly_storeEcho s a v).serve_complete alive
    exact ⟨t, (exec_echoRow hi s).trans run, only, fun x => (bytes x).trans (load_storeEcho s a v x)⟩
  · obtain ⟨t, run, -, bytes⟩ := exec_wrMem_stores alive a v
    exact ⟨decode_encodeWr_plain hc (writesPlain_of_inOam hc v ⟨lo, hi⟩), t, run, bytes⟩

/-! ### The write of LCDC -/

/-- Masking with 0xFC clears the two bits of the display mode. -/
theorem extract_mode_and_fc (b : Byte) : (b &&& 0xFC).extractLsb' 0 2 = 0 := by
  rw [BitVec.extractLsb'_and]
  exact BitVec.and_zero

/-- Masking with 0xFC keeps the six bits above the display mode. -/
theorem extract_upper_and_fc (b : Byte) : (b &&& 0xFC).extractLsb' 2 6 = b.extractLsb' 2 6 := by
  rw [BitVec.extractLsb'_and]
  exact BitVec.and_allOnes

/-- What WR.LCDC.OFF leaves in MEM (R125): the value in LCDC, STAT with its mode cleared, every other byte as before. -/
theorem exec_wrLcdcOff_stores {s : State} (alive : s.failed = false) (v : Byte) :
    ∃ t, exec (.wrLcdcOff v) s = .next t ∧ s.onlyMemory t ∧
      ∀ x, t.load x = if x = s.cfg.lcdcAddr then v
        else if x = s.cfg.statAddr then s.load s.cfg.statAddr &&& 0xFC else s.load x := by
  have changed : MemOnly s (s.clearMode.store s.cfg.lcdcAddr v) := (memOnly_clearMode s).trans (.store ..)
  obtain ⟨t, run, only, bytes⟩ := changed.serve_complete alive
  exact ⟨t, run, only, fun x => by rw [bytes, State.load_store, load_clearMode]⟩

/-- WR of LCDC with bit 7 clear is the arm that turns the display off (R125). -/
theorem decode_lcdc_off {c : Config} (hc : admitted c = true) {v : Byte} (off : v.getLsbD 7 = false) :
    decode c (encodeWr c.lcdcAddr v) = .ok (.wrLcdcOff v) := by
  rw [decode_encodeWr, classifyWrite_of_wf hc (i := .wrLcdcOff v) (decide_eq_true off) (by simp)]

/-- WR of LCDC with bit 7 set is the plain store (R125). -/
theorem decode_lcdc_on {c : Config} (hc : admitted c = true) {v : Byte} (on : v.getLsbD 7 = true) :
    decode c (encodeWr c.lcdcAddr v) = .ok (.wrMem c.lcdcAddr v) := by
  have distinct := admitted_distinct hc
  refine decode_encodeWr_plain hc (writesPlain_of_register hc (by simp [registerAddrs]) distinct.p1_lcdc.symm
    distinct.div_lcdc.symm distinct.lcdc_dma ?_)
  rw [on]
  exact fun h => Bool.noConfusion h.2

/-- Settles O27: by the two arms of WR at LCDC; LCDC and STAT are different registers, so neither of the two stores of
a display-off hides the other. -/
theorem displayOffClearsMode : Obligations.DisplayOffClearsMode := by
  intro s v hc alive
  refine ⟨fun off => ⟨decode_lcdc_off hc off, ?_⟩, fun on => ⟨decode_lcdc_on hc on, exec_wrMem_stores alive _ v⟩⟩
  obtain ⟨t, run, only, bytes⟩ := exec_wrLcdcOff_stores alive v
  have stat : t.load s.cfg.statAddr = s.load s.cfg.statAddr &&& 0xFC := by
    rw [bytes, if_neg (admitted_distinct hc).lcdc_stat.symm, if_pos rfl]
  refine ⟨t, run, only, ?_, ?_, ?_, fun x hlcdc hstat => ?_⟩
  · rw [bytes, if_pos rfl]
  · rw [stat, extract_mode_and_fc]
  · rw [stat, extract_upper_and_fc]
  · rw [bytes, if_neg hlcdc, if_neg hstat]

end Sys2Proof.Machine
end

section
/-!
Proofs about the timer: a TICK while TAC disables it.
-/
namespace Sys2Proof.Machine

/-- With TAC bit 2 clear, TICK takes the arm that watches no bit: it advances DIVIDER and counts nothing (R141). -/
theorem tick_disabled {s : State} (off : (s.load s.cfg.tacAddr).getLsbD 2 = false) (n : Word) :
    s.tick n.toNat = s.setDivider (s.divider + n) := by
  have disabled : tacEnabled (s.load s.cfg.tacAddr) = false := off
  rw [State.tick, disabled, if_neg Bool.false_ne_true, BitVec.ofNat_toNat, BitVec.setWidth_eq]

/-- Settles O37: a block that has not failed serves the TICK, a disabled TICK is one change of DIVIDER, and completing
it clears the response and advances the model's counter. -/
theorem disabledTickMovesDividerOnly : Obligations.DisabledTickMovesDividerOnly := by
  intro s n alive off
  rw [exec_tick, State.serve_alive alive, tick_disabled off, State.complete, State.setDivider]

end Sys2Proof.Machine
end

section
/-!
Proofs about the encoding: the decoder and the encoder are inverse to each other, and which words are reserved.
-/
namespace Sys2Proof

open Sys2Proof.Machine

/-! ### Decoding a command word -/

/-- The word of an RD arm decodes to that arm. -/
theorem decode_encode_rd {c : Config} (hc : admitted c = true) {i : Instr} {a : Addr} (wf : i.wf c = true)
    (word : encode c i = encodeRd a)
    (arm : i = .rdRom a ∨ i = .rdXram a ∨ i = .rdOam0 a ∨ i = .rdOam1 a ∨ i = .rdTile a ∨ i = .rdMem a ∨
      (i = .rdP1 ∧ a = c.p1Addr) ∨ (i = .rdDiv ∧ a = c.divAddr)) : decode c (encode c i) = .ok i := by
  rw [word, decode_encodeRd, classifyRead_of_wf hc wf arm]

/-- The word of a WR arm decodes to that arm. -/
theorem decode_encode_wr {c : Config} (hc : admitted c = true) {i : Instr} {a : Addr} {v : Byte}
    (wf : i.wf c = true) (word : encode c i = encodeWr a v)
    (arm : i = .wrRom a v ∨ i = .wrXram a v ∨ (i = .wrP1 v ∧ a = c.p1Addr) ∨ (i = .wrDiv v ∧ a = c.divAddr) ∨
      (i = .wrLcdcOff v ∧ a = c.lcdcAddr) ∨ (i = .wrDma v ∧ a = dmaAddr) ∨
      i = .wrMir0 a v ∨ i = .wrMir1 a v ∨ i = .wrMir2 a v ∨ i = .wrMir3 a v ∨
      i = .wrEcho0 a v ∨ i = .wrEcho1 a v ∨ i = .wrEcho2 a v ∨ i = .wrEcho3 a v ∨ i = .wrMem a v) :
    decode c (encode c i) = .ok i := by
  rw [word, decode_encodeWr, classifyWrite_of_wf hc wf arm]

/-- An OAMS word decodes by its slot index alone. -/
theorem decode_slotWord (c : Config) (k : BitVec 6) :
    decode c (command 0x6 (k.setWidth 16) 0) = classifySlot k := by
  obtain ⟨operand, unused⟩ := field_of_operand (n := 6) (m := 16) k (by decide)
  rw [decode_command]
  show requireZero _ (classifySlot _) = _
  rw [operand]
  exact if_pos ⟨rfl, unused⟩

/-- A KEY word decodes to its key state. -/
theorem decode_keyWord (c : Config) (k : Byte) : decode c (command 0x9 (k.setWidth 16) 0) = .ok (.key k) := by
  obtain ⟨operand, unused⟩ := field_of_operand (n := 8) (m := 16) k (by decide)
  rw [decode_command]
  show requireZero _ (.ok (.key _)) = _
  rw [operand]
  exact if_pos ⟨rfl, unused⟩

/-- Settles O2: an arm of RD or WR is the one its address classifies to, and every other operand is read back from its
field. -/
theorem decodeOfEncode : Obligations.DecodeOfEncode := by
  intro c i hc wf
  cases i
  case rdRom | rdXram | rdP1 | rdDiv | rdOam0 | rdOam1 | rdTile | rdMem =>
    exact decode_encode_rd hc wf rfl (by simp)
  case wrRom | wrXram | wrP1 | wrDiv | wrLcdcOff | wrDma | wrMir0 | wrMir1 | wrMir2 | wrMir3 | wrEcho0 | wrEcho1 |
      wrEcho2 | wrEcho3 | wrMem =>
    exact decode_encode_wr hc wf rfl (by simp)
  case rdw | wrw | urd | tick | rdt => exact decode_command ..
  case oams0 k => exact (decode_slotWord c k).trans (if_pos (of_decide_eq_true wf))
  case oams1 k =>
    obtain ⟨lo, hi⟩ := of_decide_eq_true wf
    rw [encode, decode_slotWord, classifySlot, if_neg (by omega), if_pos hi]
  case rdbt a m => cases m <;> exact decode_command ..
  case key k => exact decode_keyWord c k
  case reset b => cases b <;> exact decode_command ..

/-! ### What decodes -/

theorem requireZero_eq_ok {unused : Prop} [Decidable unused] {r : Except Reserved Instr} {i : Instr} :
    requireZero unused r = .ok i ↔ unused ∧ r = .ok i := by
  unfold requireZero
  split <;> simp [*]

theorem classifySlot_eq_ok {k : BitVec 6} {i : Instr} :
    classifySlot k = .ok i ↔ k.toNat < 32 ∧ i = .oams0 k ∨ (32 ≤ k.toNat ∧ k.toNat < 40) ∧ i = .oams1 k := by
  unfold classifySlot
  split
  · next lo => simp [lo, show ¬ 32 ≤ k.toNat by omega, eq_comm]
  · next lo =>
    split
    · next hi => simp [lo, hi, show 32 ≤ k.toNat by omega, eq_comm]
    · next hi => simp [lo, hi]

/-- What the decoder answers, by operation code: the unused bits that must be zero, and the operation (R73, R76). -/
theorem decodeFields_eq_ok {c : Config} {op : BitVec 4} {a : Addr} {d : Word} {i : Instr} :
    decodeFields c op a d = .ok i ↔
      op.toNat = 0x0 ∧ d = 0 ∧ i = classifyRead c a ∨
      op.toNat = 0x1 ∧ d.extractLsb' 8 8 = 0 ∧ i = classifyWrite c a (d.extractLsb' 0 8) ∨
      op.toNat = 0x2 ∧ d = 0 ∧ i = .rdw a ∨
      op.toNat = 0x3 ∧ i = .wrw a d ∨
      op.toNat = 0x4 ∧ d = 0 ∧ i = .urd a ∨
      op.toNat = 0x5 ∧ d = 0 ∧ i = .tick a ∨
      op.toNat = 0x6 ∧ (d = 0 ∧ a.extractLsb' 6 10 = 0) ∧ classifySlot (a.extractLsb' 0 6) = .ok i ∨
      op.toNat = 0x7 ∧ d = 0 ∧ i = .rdt a ∨
      op.toNat = 0x8 ∧ d.extractLsb' 1 15 = 0 ∧
        i = .rdbt a (if d.getLsbD 0 then .signedIndex else .unsignedBase) ∨
      op.toNat = 0x9 ∧ (d = 0 ∧ a.extractLsb' 8 8 = 0) ∧ i = .key (a.extractLsb' 0 8) ∨
      op.toNat = 0xA ∧ (d.extractLsb' 1 15 = 0 ∧ a = 0) ∧ i = .reset (d.getLsbD 0) := by
  unfold decodeFields
  split
  case h_12 => simp_all
  all_goals
    next code => simp [code, requireZero_eq_ok, eq_comm (b := i)]

/-- A decoded command is well formed and has the command word it was decoded from. -/
theorem standsFor_of_decodeFields {c : Config} {op : BitVec 4} {a : Addr} {d : Word} {i : Instr}
    (h : decodeFields c op a d = .ok i) : standsFor c (command op a d) i := by
  have code {n : BitVec 4} (hn : op.toNat = n.toNat) : op = n := BitVec.eq_of_toNat_eq hn
  rcases decodeFields_eq_ok.1 h with ⟨hop, rfl, rfl⟩ | ⟨hop, hd, rfl⟩ | ⟨hop, rfl, rfl⟩ | ⟨hop, rfl⟩ | ⟨hop, rfl, rfl⟩ |
    ⟨hop, rfl, rfl⟩ | ⟨hop, ⟨rfl, ha⟩, hk⟩ | ⟨hop, rfl, rfl⟩ | ⟨hop, hd, rfl⟩ | ⟨hop, ⟨rfl, ha⟩, rfl⟩ |
    ⟨hop, ⟨hd, rfl⟩, rfl⟩
  · obtain rfl := code (n := 0x0) hop
    exact classifyRead_spec c a
  · obtain rfl := code (n := 0x1) hop
    have spec := classifyWrite_spec c a (d.extractLsb' 0 8)
    rwa [encodeWr, operand_of_field (n := 8) d (by decide) hd] at spec
  · exact ⟨rfl, by rw [code (n := 0x2) hop]; rfl⟩
  · exact ⟨rfl, by rw [code (n := 0x3) hop]; rfl⟩
  · exact ⟨rfl, by rw [code (n := 0x4) hop]; rfl⟩
  · exact ⟨rfl, by rw [code (n := 0x5) hop]; rfl⟩
  · obtain rfl := code (n := 0x6) hop
    rcases classifySlot_eq_ok.1 hk with ⟨range, rfl⟩ | ⟨range, rfl⟩
    all_goals
      exact ⟨decide_eq_true range, congrArg (command 0x6 · 0) (operand_of_field (n := 6) a (by decide) ha)⟩
  · exact ⟨rfl, by rw [code (n := 0x7) hop]; rfl⟩
  · refine ⟨rfl, ?_⟩
    rw [code (n := 0x8) hop, bit_of_field d hd]
    cases d.getLsbD 0 <;> rfl
  · obtain rfl := code (n := 0x9) hop
    exact ⟨rfl, congrArg (command 0x9 · 0) (operand_of_field (n := 8) a (by decide) ha)⟩
  · refine ⟨rfl, ?_⟩
    rw [code (n := 0xA) hop, bit_of_field d hd]
    cases d.getLsbD 0 <;> rfl

/-- An operation that a word decodes to is well formed, and the word is its command word. -/
theorem standsFor_of_decode {c : Config} {w : CommandWord} {i : Instr} (h : decode c w = .ok i) :
    standsFor c w i := by
  have spec := standsFor_of_decodeFields h
  rwa [command_fields] at spec

/-- Settles O3: each operation code's fields are put back together by the encoder. -/
theorem encodeOfDecode : Obligations.EncodeOfDecode := by
  intro c w i _ h
  obtain ⟨wf, word⟩ := standsFor_of_decode h
  exact ⟨word, wf⟩

/-! ### The reserved encodings -/

/-- A slot index decodes exactly in the table (R180). -/
theorem exists_classifySlot_iff (k : BitVec 6) : (∃ i, classifySlot k = .ok i) ↔ k.toNat < 40 := by
  simp only [classifySlot_eq_ok]
  constructor
  · rintro ⟨i, ⟨range, -⟩ | ⟨range, -⟩⟩ <;> omega
  · intro range
    by_cases low : k.toNat < 32
    · exact ⟨_, .inl ⟨low, rfl⟩⟩
    · exact ⟨_, .inr ⟨⟨by omega, range⟩, rfl⟩⟩

/-- Settles O4: for each operation code the fields decode exactly where the bits it leaves unused are zero. -/
theorem reservedEncodings : Obligations.ReservedEncodings := by
  intro c w
  show (∃ i, decodeFields c (cmdOp w) (cmdA w) (cmdD w) = .ok i) ↔ _
  simp only [decodeFields_eq_ok, exists_or, exists_and_left, exists_eq, and_true, exists_classifySlot_iff]
  show _ ↔ (cmdOp w).toNat ≤ 0xA ∧ ((cmdOp w).toNat ∈ _ → cmdD w = 0) ∧
    ((cmdOp w).toNat = 0x1 → (cmdD w).extractLsb' 8 8 = 0) ∧
    ((cmdOp w).toNat ∈ _ → (cmdD w).extractLsb' 1 15 = 0) ∧
    ((cmdOp w).toNat = 0x6 → (cmdA w).extractLsb' 6 10 = 0 ∧ ((cmdA w).extractLsb' 0 6).toNat < 40) ∧
    ((cmdOp w).toNat = 0x9 → (cmdA w).extractLsb' 8 8 = 0) ∧ ((cmdOp w).toNat = 0xA → cmdA w = 0)
  by_cases code : (cmdOp w).toNat ≤ 0xA
  · generalize (cmdOp w).toNat = op at code
    interval_cases op <;> simp [and_assoc]
  · have other (n : Nat) (hn : n ≤ 0xA) : (cmdOp w).toNat ≠ n := by omega
    simp [code, other]

/-! ### The script's words -/

/-- Settles O1: the words are closed, so the encoder and the decoder compute them. -/
theorem scriptLinesDecode : Obligations.ScriptLinesDecode := by
  unfold Obligations.ScriptLinesDecode
  decide +kernel

end Sys2Proof
end

section
/-!
Proofs about what every operation keeps: the echo invariant, the bytes that only RESET writes, and the rest of the state
that few operations write.
-/
namespace Sys2Proof.Machine

/-! ### Addresses of working RAM and its echo -/

theorem mirror_toNat {a : Addr} (h : inMirror a) : (a + 0x2000).toNat = a.toNat + 0x2000 := by
  simp only [inMirror] at h
  bv_omega

theorem echo_toNat {a : Addr} (h : inEcho a) : (a - 0x2000).toNat = a.toNat - 0x2000 := by
  simp only [inEcho] at h
  bv_omega

/-- The default store writes `x` exactly when it writes the echo of `x`. -/
theorem storeDefault_writes_pair {a x : Addr} (hx : inMirror x) :
    (x = a ∨ inMirror a ∧ x = a + 0x2000 ∨ inEcho a ∧ x = a - 0x2000) ↔
      (x + 0x2000 = a ∨ inMirror a ∧ x + 0x2000 = a + 0x2000 ∨ inEcho a ∧ x + 0x2000 = a - 0x2000) := by
  simp only [inMirror, inEcho] at *
  bv_omega

/-! ### A change of MEM alone, field by field -/

theorem MemOnly.divider_eq {s t : State} (h : MemOnly s t) : t.divider = s.divider := h.fields.1

theorem MemOnly.keys_eq {s t : State} (h : MemOnly s t) : t.keys = s.keys := h.fields.2.1

theorem MemOnly.cfg_eq {s t : State} (h : MemOnly s t) : t.cfg = s.cfg := by
  obtain ⟨m, rfl⟩ := h
  rfl

/-! ### The bytes that a resolved write leaves alone -/

/-- The default store outside working RAM and its echo writes its address only. -/
theorem load_storeDefault_of_outside (s : State) {a x : Addr} (v : Byte) (ne : x ≠ a)
    (ram : x.toNat < 0xC000 ∨ 0xFDFF < x.toNat) : (s.storeDefault a v).load x = s.load x := by
  rw [load_storeDefault, if_neg]
  rintro (eq | ⟨mirror, rfl⟩ | ⟨echo, rfl⟩)
  · exact ne eq
  · rw [mirror_toNat mirror] at ram
    simp only [inMirror] at mirror
    omega
  · rw [echo_toNat echo] at ram
    simp only [inEcho] at echo
    omega

/-- A resolved write keeps a byte outside working RAM, its echo and the sprite table, but for STAT, the DMA register and
the byte at its own address, which the arms of the windows and of DIV leave alone too. -/
theorem load_busWrite_of_outside {s : State} (hc : admitted s.cfg = true) {a x : Addr} (v : Byte)
    (ram : x.toNat < 0xC000 ∨ 0xFDFF < x.toNat) (oam : ¬ inOam x) (dma : x ≠ dmaAddr) (stat : x ≠ s.cfg.statAddr)
    (target : ¬ inRom a → ¬ inXram a → a ≠ s.cfg.divAddr → x ≠ a) : (s.busWrite a v).load x = s.load x := by
  have distinct := admitted_distinct hc
  have reg {r : Addr} (out : OutsideRanges s.cfg r) : ¬ inRom r ∧ ¬ inXram r := by
    have := out.rom
    have := out.xram
    simp only [inRom, inXram]
    omega
  rcases busWrite_cases s a v with ⟨-, e⟩ | ⟨-, e⟩ | ⟨rfl, e⟩ | ⟨-, e⟩ | ⟨rfl, -, e⟩ | ⟨-, e⟩ |
    ⟨rom, xram, -, div, -, e⟩ <;> rw [e]
  · rfl
  · rfl
  · obtain ⟨rom, xram⟩ := reg (admitted_regs hc).p1
    rw [State.writeP1, State.load_store, if_neg (target rom xram distinct.p1_div)]
  · rfl
  · obtain ⟨rom, xram⟩ := reg (admitted_regs hc).lcdc
    rw [load_storeDefault_of_outside _ v (target rom xram distinct.div_lcdc.symm) ram, load_clearMode, if_neg stat]
  · rw [load_writeDma hc, if_neg (fun h => dma h.1), if_neg oam]
  · exact load_storeDefault_of_outside s v (target rom xram div) ram

/-! ### Properties of the state that the parts of every operation keep -/

/-- The parts that operations other than RESET are made of keep `P`, under the parameters `c`. -/
structure KeptByParts (c : Config) (P : State → Prop) : Prop where
  respond  : ∀ s r, P s → P (s.respond r)
  complete : ∀ s, P s → P s.complete
  write    : ∀ s a v, s.cfg = c → P s → P (s.busWrite a v)
  tick     : ∀ s n, s.cfg = c → P s → P (s.tick n)
  keys     : ∀ s k, s.cfg = c → P s → P (s.updateKeys k)

/-- What the parts keep, every well-formed operation other than RESET keeps. -/
theorem KeptByParts.exec {P : State → Prop} {i : Instr} {s t : State} (kept : KeptByParts s.cfg P)
    (hc : admitted s.cfg = true) (wf : i.wf s.cfg = true) (notReset : isReset i = false) (run : exec i s = .next t)
    (hs : P s) : P t := by
  cases read : isRead i
  · cases write : isWrite i
    · rcases other_cases read write with ⟨n, rfl⟩ | ⟨k, rfl⟩ | ⟨b, rfl⟩
      · obtain ⟨-, rfl⟩ := State.serve_eq_next.1 run
        exact kept.complete _ (kept.tick _ _ rfl hs)
      · obtain ⟨-, rfl⟩ := State.serve_eq_next.1 run
        exact kept.complete _ (kept.keys _ _ rfl hs)
      · cases notReset
    · by_cases word : ∃ a w, i = .wrw a w
      · obtain ⟨a, w, rfl⟩ := word
        obtain ⟨-, rfl⟩ := State.serve_eq_next.1 run
        exact kept.complete _ (kept.write _ _ _ (writeKeeps_busWrite ..).ports.cfg (kept.write _ _ _ rfl hs))
      · obtain ⟨a, v, -, arm⟩ := exec_wf_write hc wf write (fun a w h => word ⟨a, w, h⟩)
        obtain ⟨-, rfl⟩ := State.serve_eq_next.1 (arm.symm.trans run)
        exact kept.complete _ (kept.write _ _ _ rfl hs)
  · obtain ⟨-, r, rfl⟩ := exec_read read run
    exact kept.respond _ _ hs

/-- KEY writes IF at most, and of IF it can only set the input request (R195). -/
theorem load_updateKeys (s : State) (k : Byte) :
    (∀ x, x ≠ s.cfg.ifAddr → (s.updateKeys k).load x = s.load x) ∧
    ((s.updateKeys k).load s.cfg.ifAddr = s.load s.cfg.ifAddr ∨
      (s.updateKeys k).load s.cfg.ifAddr = s.load s.cfg.ifAddr ||| ifInput) := by
  unfold State.updateKeys
  split
  · exact ⟨fun _ _ => rfl, .inl rfl⟩
  · simp only [load_raise, State.setKeys_cfg, State.load_setKeys, if_true]
    exact ⟨fun x hx => if_neg hx, .inr trivial⟩

/-- TICK and KEY write TIMA and IF at most: of a property of the other bytes only the resolved write is left to check.
-/
theorem keptByParts_of_bytes {c : Config} (hc : admitted c = true) {Q : (Addr → Byte) → Prop}
    (others : ∀ f g, (∀ x, x ≠ c.timaAddr → x ≠ c.ifAddr → g x = f x) → Q f → Q g)
    (write : ∀ (s : State) a v, s.cfg = c → Q s.load → Q (s.busWrite a v).load) :
    KeptByParts c (fun s => Q s.load) where
  respond _ _ := id
  complete _ := id
  write := write
  tick s n hs := others _ _ (hs ▸ (load_tick (s := s) (hs ▸ hc) n).1)
  keys s k hs := others _ _ fun x _ hif => (load_updateKeys s k).1 x (hs ▸ hif)

/-! ### Bytes that only RESET writes -/

/-- The bytes under the windows and under DIV, which the arms of RD and WR there pass by (R16). -/
abbrev shadowed (c : Config) (x : Addr) : Prop := inRom x ∨ inXram x ∨ x = c.divAddr

/-- The registers but DIV are not shadowed. -/
theorem shadowed_ne_register {c : Config} (hc : admitted c = true) {x r : Addr} (hx : shadowed c x)
    (hr : r ∈ registerAddrs c) (notDiv : c.divAddr ≠ r) : x ≠ r := by
  have out := admitted_outside hc r hr
  rintro rfl
  have := out.rom
  have := out.xram
  rcases hx with rom | xram | rfl
  · simp only [inRom] at rom
    omega
  · simp only [inXram] at xram
    omega
  · exact notDiv rfl

/-- A shadowed byte lies outside working RAM, its echo and the sprite table. -/
theorem shadowed_outside {c : Config} (hc : admitted c = true) {x : Addr} (hx : shadowed c x) :
    (x.toNat < 0xC000 ∨ 0xFDFF < x.toNat) ∧ ¬ inOam x := by
  have div := (admitted_regs hc).div
  have := div.ram
  have := div.oam
  simp only [inOam]
  rcases hx with rom | xram | rfl
  · simp only [inRom] at rom
    omega
  · simp only [inXram] at xram
    omega
  · omega

/-- Settles O49: the arms of the windows and of DIV leave MEM alone, and no other arm writes there. -/
theorem shadowedBytesOnlyByReset : Obligations.ShadowedBytesOnlyByReset := by
  intro i s t x hc wf notReset run hx
  have distinct := admitted_distinct hc
  have dma := shadowed_ne_register hc hx (by simp [registerAddrs]) distinct.div_dma
  have stat := shadowed_ne_register hc hx (by simp [registerAddrs]) distinct.div_stat
  have tima := shadowed_ne_register hc hx (by simp [registerAddrs]) distinct.div_tima
  have ifr := shadowed_ne_register hc hx (by simp [registerAddrs]) distinct.div_if
  obtain ⟨ram, oam⟩ := shadowed_outside hc hx
  refine (keptByParts_of_bytes hc (Q := fun f => f x = s.load x) ?_ ?_).exec hc wf notReset run rfl
  · exact fun f g same hf => (same x tima ifr).trans hf
  · intro u a v hu kept
    refine (load_busWrite_of_outside (hu ▸ hc) v ram oam dma (hu ▸ stat) ?_).trans kept
    rintro rom xram div rfl
    exact hx.elim rom (·.elim xram (hu ▸ div))

/-- At P1_ADDR the write chain ends in the masked write (R123). -/
theorem busWrite_p1 {s : State} (hc : admitted s.cfg = true) (v : Byte) : s.busWrite s.cfg.p1Addr v = s.writeP1 v := by
  have out := (admitted_regs hc).p1
  have := out.rom
  have := out.xram
  rw [State.busWrite, if_neg (by simp only [inRom]; omega), if_neg (by simp only [inXram]; omega), if_pos rfl]

/-- The masked write of P1 keeps bits 7:6 and 3:0 of the stored byte (R123). -/
theorem p1Mask_keeps (st v : Byte) : (st &&& 0xCF ||| v &&& 0x30) &&& 0xCF = st &&& 0xCF := by
  have disjoint : (0x30 : Byte) &&& 0xCF = 0#8 := by decide
  have idem : (0xCF : Byte) &&& 0xCF = 0xCF := by decide
  rw [BitVec.and_or_distrib_right, BitVec.and_assoc, idem, BitVec.and_assoc, disjoint, BitVec.and_zero, BitVec.or_zero]

/-- A resolved write keeps bits 7:6 and 3:0 of the stored P1: its own arm masks them, no other writes the byte. -/
theorem busWrite_keeps_p1 {s : State} (hc : admitted s.cfg = true) (a : Addr) (v : Byte) :
    (s.busWrite a v).load s.cfg.p1Addr &&& 0xCF = s.load s.cfg.p1Addr &&& 0xCF := by
  have distinct := admitted_distinct hc
  have out := (admitted_regs hc).p1
  have oam : ¬ inOam s.cfg.p1Addr := by
    have := out.oam
    simp only [inOam]
    omega
  by_cases target : a = s.cfg.p1Addr
  · rw [target, busWrite_p1 hc, State.writeP1, State.load_store, if_pos rfl, p1Mask_keeps]
  · rw [load_busWrite_of_outside hc v out.ram oam distinct.p1_dma distinct.p1_stat fun _ _ _ => Ne.symm target]

/-- Settles O50: a resolved write keeps these bits, and the timer and the keys write other bytes. -/
theorem p1RetainedBitsOnlyByReset : Obligations.P1RetainedBitsOnlyByReset := by
  intro i s t hc wf notReset run
  have distinct := admitted_distinct hc
  refine (keptByParts_of_bytes hc (Q := fun f => f s.cfg.p1Addr &&& 0xCF = s.load s.cfg.p1Addr &&& 0xCF) ?_ ?_).exec
    hc wf notReset run rfl
  · intro f g same hf
    rwa [same _ distinct.p1_tima distinct.p1_if]
  · intro u a v hu kept
    have write := busWrite_keeps_p1 (s := u) (hu ▸ hc) a v
    rw [hu] at write
    exact write.trans kept

/-! ### The invariant -/

/-- No register lies in working RAM or its echo. -/
theorem OutsideRanges.ne_of_ram {c : Config} {r x : Addr} (out : OutsideRanges c r) (lo : 0xC000 ≤ x.toNat)
    (hi : x.toNat ≤ 0xFDFF) : x ≠ r := by
  have := out.ram
  rintro rfl
  omega

/-- The echo invariant depends on the bytes of working RAM and its echo alone. -/
theorem echoes_of_load_eq {s t : State} (same : ∀ x : Addr, 0xC000 ≤ x.toNat → x.toNat ≤ 0xFDFF → t.load x = s.load x)
    (hs : s.echoes) : t.echoes := by
  intro x hx
  have := mirror_toNat hx
  have hx' := hx
  simp only [inMirror] at hx'
  rw [same x (by omega) (by omega), same (x + 0x2000) (by omega) (by omega)]
  exact hs x hx

/-- The default store writes a mirrored byte and its echo together. -/
theorem storeDefault_echoes {s : State} (hs : s.echoes) (a : Addr) (v : Byte) : (s.storeDefault a v).echoes := by
  intro x hx
  rw [load_storeDefault, load_storeDefault, if_congr (storeDefault_writes_pair hx) rfl (hs x hx)]

/-- A resolved write keeps the echo invariant: only its default arm writes working RAM or its echo. -/
theorem busWrite_echoes {s : State} (hc : admitted s.cfg = true) (hs : s.echoes) (a : Addr) (v : Byte) :
    (s.busWrite a v).echoes := by
  have regs := admitted_regs hc
  rcases busWrite_cases s a v with ⟨-, e⟩ | ⟨-, e⟩ | ⟨-, e⟩ | ⟨-, e⟩ | ⟨-, -, e⟩ | ⟨-, e⟩ | ⟨-, -, -, -, -, e⟩ <;>
    rw [e]
  · exact hs
  · exact hs
  · refine echoes_of_load_eq (fun x lo hi => ?_) hs
    rw [State.writeP1, State.load_store, if_neg (regs.p1.ne_of_ram lo hi)]
  · exact hs
  · refine storeDefault_echoes (echoes_of_load_eq (fun x lo hi => ?_) hs) a v
    rw [load_clearMode, if_neg (regs.stat.ne_of_ram lo hi)]
  · refine echoes_of_load_eq (fun x lo hi => ?_) hs
    have dma : dmaAddr.toNat = 0xFF46 := rfl
    rw [load_writeDma hc, if_neg (by rintro ⟨rfl, -⟩; omega), if_neg (by simp only [inOam]; omega)]
  · exact storeDefault_echoes hs a v

/-- The parts of the operations keep the echo invariant. -/
theorem keptByParts_echoes {c : Config} (hc : admitted c = true) : KeptByParts c State.echoes := by
  have regs := admitted_regs hc
  refine keptByParts_of_bytes hc (Q := fun f => ∀ x, inMirror x → f x = f (x + 0x2000)) (fun f g same hf x hx => ?_)
    (fun s a v hs echoes => busWrite_echoes (hs ▸ hc) echoes a v)
  have kept {y : Addr} (lo : 0xC000 ≤ y.toNat) (hi : y.toNat ≤ 0xFDFF) : g y = f y :=
    same y (regs.tima.ne_of_ram lo hi) (regs.ifr.ne_of_ram lo hi)
  have := mirror_toNat hx
  have hx' := hx
  simp only [inMirror] at hx'
  rw [kept (by omega) (by omega), kept (y := x + 0x2000) (by omega) (by omega)]
  exact hf x hx

/-! ### What RESET stores -/

/-- A byte that no store of a list names is as before. -/
theorem Memory.read_writeAll_of_not_named {l : List (Addr × Byte)} {a : Addr} (m : Memory) (h : ∀ e ∈ l, e.1 ≠ a) :
    Memory.read (Memory.writeAll m l) a.toNat = Memory.read m a.toNat := by
  have none : l.reverse.find? (fun e => e.1 == a) = none := by simpa using h
  rw [Memory.read_writeAll, none]

/-- The stores of an unbooted RESET: byte `i` of LOGO at LOGO_OFF + i (R223). -/
theorem mem_logoStores {c : Config} {e : Addr × Byte} (h : e ∈ logoStores c) :
    ∃ i, ∃ hi : i < c.logo.length, e = (c.logoOff + BitVec.ofNat 16 i, c.logo[i]) := by
  obtain ⟨⟨v, i⟩, hmem, rfl⟩ := List.mem_map.1 h
  obtain ⟨hi, hv⟩ := List.mem_zipIdx' hmem
  exact ⟨i, hi, congrArg _ hv⟩

/-- The address of a byte of the logo, as a number: it lies in the ROM window (R33). -/
theorem logoAddr_toNat {c : Config} (hc : admitted c = true) {i : Nat} (hi : i < c.logo.length) :
    (c.logoOff + BitVec.ofNat 16 i).toNat = c.logoOff.toNat + i := by
  obtain ⟨len, low, -⟩ := admitted_parts hc
  rw [BitVec.toNat_add, BitVec.toNat_ofNat]
  omega

/-- No store of RESET is in working RAM or its echo (R27). -/
theorem logoStores_outside {c : Config} (hc : admitted c = true) {e : Addr × Byte} (he : e ∈ logoStores c) :
    e.1.toNat < 0xC000 ∨ 0xFDFF < e.1.toNat := by
  obtain ⟨len, low, -⟩ := admitted_parts hc
  obtain ⟨i, hi, rfl⟩ := mem_logoStores he
  rw [logoAddr_toNat hc hi]
  omega

theorem bootStores_outside {c : Config} (hc : admitted c = true) {e : Addr × Byte} (he : e ∈ bootStores c) :
    e.1.toNat < 0xC000 ∨ 0xFDFF < e.1.toNat := by
  have regs := admitted_regs hc
  rcases List.mem_append.1 he with named | extra
  · simp only [List.mem_cons, List.not_mem_nil, or_false] at named
    rcases named with rfl | rfl | rfl
    exacts [regs.p1.ram, regs.stat.ram, regs.ifr.ram]
  · obtain ⟨-, -, inRange, -⟩ := admitted_parts hc
    have allowed := inRange e extra
    simp only [extraAllowed, Bool.and_eq_true, decide_eq_true_eq] at allowed
    omega

/-- Working RAM and its echo hold zeros after a RESET that did not fail (R220, R221). -/
theorem read_resetMem_ram {c : Config} (hc : admitted c = true) (b : Bool) {x : Addr} (lo : 0xC000 ≤ x.toNat)
    (hi : x.toNat ≤ 0xFDFF) : Memory.read (resetMem c b) x.toNat = unlistedByte := by
  refine Memory.read_writeAll_of_not_named [] ?_
  cases b <;> rintro e he rfl
  · have := logoStores_outside hc he
    omega
  · have := bootStores_outside hc he
    omega

/-- A block rebuilt by RESET has the echo invariant. -/
theorem construct_echoes {s : State} (hc : admitted s.cfg = true) (rom : List Byte) (b : Bool)
    (built : (s.construct rom b).failed = false) : (s.construct rom b).echoes := by
  rcases construct_cases s rom b with ⟨e, -⟩ | ⟨bc, -, e⟩ <;> rw [e] at built ⊢
  · cases built
  · intro x hx
    have := mirror_toNat hx
    simp only [inMirror] at hx
    show Memory.read (resetMem s.cfg b) x.toNat = Memory.read (resetMem s.cfg b) (x + 0x2000).toNat
    rw [read_resetMem_ram hc b (by omega) (by omega), read_resetMem_ram hc b (by omega) (by omega)]

/-- What every operation other than RESET keeps (R12, R13, R24, R25); it runs with FAILED = 0 only (R204). -/
theorem exec_keeps {i : Instr} {s t : State} (notReset : isReset i = false) (run : exec i s = .next t) :
    s.failed = false ∧ t.failed = s.failed ∧ t.bc.variant = s.bc.variant ∧ t.bc.rom = s.bc.rom ∧
      ((∀ k, i ≠ .key k) → t.keys = s.keys) := by
  cases read : isRead i
  · cases write : isWrite i
    · rcases other_cases read write with ⟨n, rfl⟩ | ⟨k, rfl⟩ | ⟨b, rfl⟩
      · obtain ⟨alive, rfl⟩ := State.serve_eq_next.1 run
        obtain ⟨d, m, e⟩ := tick_keeps s n.toNat
        rw [e]
        exact ⟨alive, rfl, rfl, rfl, fun _ => rfl⟩
      · obtain ⟨alive, rfl⟩ := State.serve_eq_next.1 run
        obtain ⟨m, e⟩ := updateKeys_keeps s k
        rw [e]
        exact ⟨alive, rfl, rfl, rfl, fun other => absurd rfl (other k)⟩
      · cases notReset
    · obtain ⟨alive, u, rfl, kept⟩ := exec_write write run
      exact ⟨alive, kept.failed, kept.variant, kept.rom, fun _ => kept.keys⟩
  · obtain ⟨alive, r, rfl⟩ := exec_read read run
    exact ⟨alive, rfl, rfl, rfl, fun _ => rfl⟩

theorem eq_reset_of_isReset {i : Instr} (h : isReset i = true) : ∃ b, i = .reset b := by
  cases i
  case reset b => exact ⟨b, rfl⟩
  all_goals exact (Bool.false_ne_true h).elim

/-- Every well-formed operation keeps the invariant. -/
theorem exec_keeps_inv {i : Instr} {s t : State} (inv : s.Inv) (wf : i.wf s.cfg = true) (run : exec i s = .next t) :
    t.Inv := by
  refine ⟨(exec_ports run).cfg ▸ inv.admitted, wf_exec inv.wf run, fun alive => ?_⟩
  cases reset : isReset i
  · exact (keptByParts_echoes inv.admitted).exec inv.admitted wf reset run (inv.echoes (exec_keeps reset run).1)
  · obtain ⟨b, rfl⟩ := eq_reset_of_isReset reset
    cases run
    exact construct_echoes inv.admitted _ _ alive

/-- Settles O10: accepting a command changes no byte, and the operation it decodes to is well formed. -/
theorem stepKeepsInvariant : Obligations.StepKeepsInvariant := by
  intro s t inv run
  obtain ⟨-, ⟨-, rfl⟩ | ⟨c, rest, i, -, decoded, ran⟩⟩ := step_cases run
  · exact inv
  · have accepted : (s.accept c rest).Inv := ⟨inv.admitted, inv.wf, inv.echoes⟩
    exact exec_keeps_inv accepted (standsFor_of_decode decoded).1 ran

/-! ### Who writes what -/

/-- Settles O54: each operation ends in its ports and parameters as they were. -/
theorem portsAndConfigurationKept : Obligations.PortsAndConfigurationKept :=
  fun _ _ _ => exec_ports

/-- Settles O52: only KEY replaces KEYS, and no write of the BankController touches the variant or the image. -/
theorem keysAndCartridgeWriters : Obligations.KeysAndCartridgeWriters := by
  intro i s t notReset run
  exact (exec_keeps notReset run).2

/-- A resolved write of any address but DIV keeps DIVIDER. -/
theorem busWrite_divider {s : State} {a : Addr} (v : Byte) (h : a ≠ s.cfg.divAddr) :
    (s.busWrite a v).divider = s.divider := by
  rcases busWrite_cases s a v with ⟨-, e⟩ | ⟨-, e⟩ | ⟨-, e⟩ | ⟨div, -⟩ | ⟨-, -, e⟩ | ⟨-, e⟩ | ⟨-, -, -, -, -, e⟩
  · rw [e, State.setBc_divider]
  · rw [e, State.setBc_divider]
  · rw [e, (memOnly_writeP1 s v).divider_eq]
  · exact absurd div h
  · rw [e, ((memOnly_clearMode s).trans (memOnly_storeDefault ..)).divider_eq]
  · rw [e, (memOnly_writeDma s v).divider_eq]
  · rw [e, (memOnly_storeDefault s a v).divider_eq]

/-- An operation whose parts keep DIVIDER keeps it. -/
theorem divider_of_serve {i : Instr} {s t u : State} (arm : exec i s = s.serve u.complete)
    (run : exec i s = .next t) (kept : u.divider = s.divider) : t.divider = s.divider := by
  obtain ⟨-, rfl⟩ := State.serve_eq_next.1 (arm.symm.trans run)
  exact kept

/-- An operation of a bus write that changes DIVIDER is the write of DIV, alone or as half of a WRW (R11). -/
theorem exec_write_divider {i : Instr} {s t : State} (write : isWrite i = true) (run : exec i s = .next t)
    (changed : t.divider ≠ s.divider) :
    (∃ v, i = .wrDiv v) ∨ ∃ a w, i = .wrw a w ∧ (a = s.cfg.divAddr ∨ a + 1 = s.cfg.divAddr) := by
  cases i
  case wrDiv v => exact .inl ⟨v, rfl⟩
  case wrw a w =>
    refine .inr ⟨a, w, rfl, ?_⟩
    by_contra other
    obtain ⟨lo, hi⟩ := not_or.1 other
    refine changed (divider_of_serve (exec_wrw a w s) run ?_)
    rw [busWrite_divider, busWrite_divider _ lo]
    rwa [(writeKeeps_busWrite ..).ports.cfg]
  case wrRom a v => exact absurd (divider_of_serve (exec_wrRom a v s) run rfl) changed
  case wrXram a v => exact absurd (divider_of_serve (exec_wrXram a v s) run rfl) changed
  case wrP1 v => exact absurd (divider_of_serve (exec_wrP1 v s) run (memOnly_writeP1 s v).divider_eq) changed
  case wrLcdcOff v =>
    have only : MemOnly s (s.clearMode.store s.cfg.lcdcAddr v) := (memOnly_clearMode s).trans (.store ..)
    exact absurd (divider_of_serve (exec_wrLcdcOff v s) run only.divider_eq) changed
  case wrDma v => exact absurd (divider_of_serve (exec_wrDma v s) run (memOnly_writeDma s v).divider_eq) changed
  case wrMir0 a v | wrMir1 a v | wrMir2 a v | wrMir3 a v =>
    exact absurd (divider_of_serve (exec_mirrorRow (by simp) s) run (memOnly_storeMirror s a v).divider_eq) changed
  case wrEcho0 a v | wrEcho1 a v | wrEcho2 a v | wrEcho3 a v =>
    exact absurd (divider_of_serve (exec_echoRow (by simp) s) run (memOnly_storeEcho s a v).divider_eq) changed
  case wrMem a v => exact absurd (divider_of_serve (exec_wrMem a v s) run (MemOnly.store s a v).divider_eq) changed
  all_goals exact (Bool.false_ne_true write).elim

/-- Settles O51: a read and KEY keep DIVIDER, a bus write keeps it or clears it, and the clearing arm is that of DIV. -/
theorem dividerWriters : Obligations.DividerWriters := by
  intro i s t notReset run changed
  cases read : isRead i
  · cases write : isWrite i
    · rcases other_cases read write with ⟨n, rfl⟩ | ⟨k, rfl⟩ | ⟨b, rfl⟩
      · exact .inl ⟨n, rfl⟩
      · obtain ⟨-, rfl⟩ := State.serve_eq_next.1 run
        exact absurd (updateKeys_keeps s k).divider_eq changed
      · cases notReset
    · obtain ⟨-, u, rfl, kept⟩ := exec_write write run
      exact .inr ⟨exec_write_divider write run changed, kept.divider.resolve_left changed⟩
  · obtain ⟨-, r, rfl⟩ := exec_read read run
    exact absurd rfl changed

/-- Raising a request sets the bits of its mask and keeps the others. -/
theorem raised_bit {before after mask : Byte} (h : after = before ∨ after = before ||| mask) (b : Nat) :
    (before.getLsbD b = true → after.getLsbD b = true) ∧
    (before.getLsbD b = false → after.getLsbD b = true → mask.getLsbD b = true) := by
  rcases h with rfl | rfl
  · exact ⟨id, fun clear set => absurd (clear.symm.trans set) Bool.false_ne_true⟩
  · rw [BitVec.getLsbD_or]
    exact ⟨fun set => by rw [set, Bool.true_or], fun clear => by rw [clear, Bool.false_or]; exact id⟩

theorem ifTimer_bit : ∀ b < 8, ifTimer.getLsbD b = true → b = 2 := by decide

theorem ifInput_bit : ∀ b < 8, ifInput.getLsbD b = true → b = 4 := by decide

/-- Settles O53: a read changes no byte, TICK can raise the timer request and KEY the input request. -/
theorem requestsClearedOnlyByWrites : Obligations.RequestsClearedOnlyByWrites := by
  intro i s t hc notWrite notReset run b hb
  cases read : isRead i
  · rcases other_cases read notWrite with ⟨n, rfl⟩ | ⟨k, rfl⟩ | ⟨_, rfl⟩
    · obtain ⟨-, rfl⟩ := State.serve_eq_next.1 run
      obtain ⟨keeps, raises⟩ := raised_bit (load_tick hc n.toNat).2 b
      exact ⟨keeps, fun clear set => .inl ⟨ifTimer_bit b hb (raises clear set), n, rfl⟩⟩
    · obtain ⟨-, rfl⟩ := State.serve_eq_next.1 run
      obtain ⟨keeps, raises⟩ := raised_bit (load_updateKeys s k).2 b
      exact ⟨keeps, fun clear set => .inr ⟨ifInput_bit b hb (raises clear set), k, rfl⟩⟩
    · cases notReset
  · obtain ⟨-, r, rfl⟩ := exec_read read run
    exact ⟨id, fun clear set => absurd (clear.symm.trans set) Bool.false_ne_true⟩

end Sys2Proof.Machine
end

section
/-!
Proofs about the step and the end of an operation: what a step runs or refuses, which port makes no difference, when an
operation completes, and the state after reset.
-/
namespace Sys2Proof.Machine

/-! ### What a step runs -/

/-- With an admitted configuration and a command that decodes, a step is the operation on the state that accepted it. -/
theorem step_of_decode {s : State} {c : Command} {rest : List Command} {i : Instr} (hc : admitted s.cfg = true)
    (first : s.inbox = c :: rest) (decoded : decode s.cfg c.word = .ok i) : step s = exec i (s.accept c rest) := by
  rw [step, if_pos hc, first]
  simp only [decoded]

/-- With an admitted configuration and a reserved command, a step is refused with the decoder's reason. -/
theorem step_of_reserved {s : State} {c : Command} {rest : List Command} {e : Reserved} (hc : admitted s.cfg = true)
    (first : s.inbox = c :: rest) (reserved : decode s.cfg c.word = .error e) :
    step s = .refused (.reservedCommand e) := by
  rw [step, if_pos hc, first]
  simp only [reserved]

/-- With a configuration that is not admitted, a step is refused. -/
theorem step_of_not_admitted {s : State} (h : ¬ admitted s.cfg = true) : step s = .refused .configNotAdmitted :=
  if_neg h

/-- Settles O5: accepting the command is taking it from the inbox, with its port and sideband. -/
theorem stepRunsDecodedCommand : Obligations.StepRunsDecodedCommand :=
  fun _ _ _ _ => step_of_decode

/-- Settles O6: the step of an empty inbox answers the state itself. -/
theorem idleStepChangesNothing : Obligations.IdleStepChangesNothing := by
  intro s hc idle
  rw [step, if_pos hc, idle]

/-- Settles O7: the step looks at the configuration before anything else. -/
theorem unadmittedConfigurationRefused : Obligations.UnadmittedConfigurationRefused := by
  intro s h
  exact step_of_not_admitted (by rw [h]; exact Bool.false_ne_true)

/-- Settles O8: a word that is no operation is decoded to a reason, which the step passes on. -/
theorem reservedCommandRefused : Obligations.ReservedCommandRefused := by
  intro s c rest hc first none
  cases decoded : decode s.cfg c.word with
  | ok i => exact absurd decoded (none i)
  | error e => exact ⟨e, rfl, step_of_reserved hc first decoded⟩

/-! ### The port of a command -/

/-- An outcome, its next state presented on another port. -/
def onPort (p : Port) (o : Outcome) : Outcome :=
  match o with
  | .next t => .next { t with port := p }
  | .fault r => .fault r
  | .refused r => .refused r

/-- Serving an operation looks at FAILED alone. -/
theorem serve_onPort {s t u : State} {p : Port} (h : u = { t with port := p }) :
    State.serve { s with port := p } u = onPort p (s.serve t) := by
  unfold State.serve
  cases hf : s.failed
  · simp [h, onPort]
  · simp [onPort]

theorem oams_onPort (s : State) (k : BitVec 6) (p : Port) :
    State.oams { s with port := p } k = onPort p (s.oams k) := by
  unfold State.oams
  split
  · exact serve_onPort rfl
  · rfl

/-- Completing an operation forgets the response that its parts carried along. -/
theorem complete_setIO (s : State) (p : Port) (r : Option Response) :
    (s.setIO p r).complete = { s.complete with port := p } := rfl

theorem updateKeys_onPort (s : State) (k : Byte) (p : Port) :
    State.updateKeys { s with port := p } k = { s.updateKeys k with port := p } := by
  by_cases none : newlyPressed s.keys k = 0
  · rw [State.updateKeys, State.updateKeys, if_pos none, if_pos none]
    rfl
  · rw [State.updateKeys, State.updateKeys, if_neg none, if_neg none]
    rfl

theorem construct_onPort (s : State) (rom : List Byte) (b : Bool) (p : Port) :
    State.construct { s with port := p } rom b = { s.construct rom b with port := p } := by
  unfold State.construct
  cases bcNew s.cfg rom <;> rfl

/-- No operation reads the port. -/
theorem exec_onPort (i : Instr) (s : State) (p : Port) : exec i { s with port := p } = onPort p (exec i s) := by
  have same : { s with port := p } = s.setIO p s.response := rfl
  cases i
  case oams0 k | oams1 k => exact oams_onPort s k p
  case reset b =>
    show Host.Outcome.next _ = .next _
    rw [construct_onPort]
    rfl
  case wrDma v =>
    refine serve_onPort ?_
    rw [same, writeDma_setIO, complete_setIO]
  case wrw a w =>
    refine serve_onPort ?_
    rw [same, busWrite_setIO, busWrite_setIO, complete_setIO]
  case tick n =>
    refine serve_onPort ?_
    rw [same, tick_setIO, complete_setIO]
  case key k =>
    refine serve_onPort ?_
    rw [updateKeys_onPort]
    rfl
  all_goals exact serve_onPort rfl

/-- Settles O9: the command decodes alike on either port, and no operation reads the port. -/
theorem portMakesNoDifference : Obligations.PortMakesNoDifference := by
  intro s c rest p
  show step { s with inbox := { c with port := p } :: rest } = onPort p (step { s with inbox := c :: rest })
  by_cases hc : admitted s.cfg = true
  · cases decoded : decode s.cfg c.word with
    | ok i =>
      rw [step_of_decode (s := { s with inbox := { c with port := p } :: rest }) hc rfl decoded,
        step_of_decode (s := { s with inbox := c :: rest }) hc rfl decoded]
      exact exec_onPort i (s.accept c rest) p
    | error e =>
      rw [step_of_reserved (s := { s with inbox := { c with port := p } :: rest }) hc rfl decoded,
        step_of_reserved (s := { s with inbox := c :: rest }) hc rfl decoded]
      rfl
  · rw [step_of_not_admitted (s := { s with inbox := { c with port := p } :: rest }) hc,
      step_of_not_admitted (s := { s with inbox := c :: rest }) hc]
    rfl

/-! ### Completion -/

/-- A well-formed operation other than RESET is served (R200, R204). -/
theorem exec_is_served {i : Instr} {s : State} (wf : i.wf s.cfg = true) (notReset : isReset i = false) :
    ∃ t, exec i s = s.serve t := by
  cases i
  case oams0 k =>
    have range : k.toNat < 32 := of_decide_eq_true wf
    exact ⟨_, if_pos (by omega)⟩
  case oams1 k => exact ⟨_, if_pos (of_decide_eq_true wf).2⟩
  case reset b => cases notReset
  all_goals exact ⟨_, rfl⟩

/-- Settles O13: with FAILED = 0 a served operation reaches its next state, and RESET always does. -/
theorem aliveOperationsComplete : Obligations.AliveOperationsComplete := by
  intro i s alive wf
  cases reset : isReset i
  · obtain ⟨t, served⟩ := exec_is_served wf reset
    exact ⟨t, served.trans (State.serve_alive alive t)⟩
  · obtain ⟨b, rfl⟩ := eq_reset_of_isReset reset
    exact ⟨_, rfl⟩

/-- Settles O14: with FAILED = 1 a served operation faults, and RESET is not served but always runs. -/
theorem deadBlockServesOnlyReset : Obligations.DeadBlockServesOnlyReset := by
  intro i s dead wf
  split
  · next reset =>
    obtain ⟨b, rfl⟩ := eq_reset_of_isReset reset
    exact ⟨_, rfl⟩
  · next notReset =>
    obtain ⟨t, served⟩ := exec_is_served wf (Bool.eq_false_of_not_eq_true notReset)
    exact served.trans (State.serve_dead dead t)

/-- Settles O15: both rows of OAMS test the index first. -/
theorem slotPastTableRefused : Obligations.SlotPastTableRefused := by
  intro k s past
  have refused : s.oams k = .refused .slotIndex := if_neg (by omega)
  exact ⟨refused, refused⟩

/-! ### The state after reset -/

/-- The state after reset is a booted RESET's, so its invariant is that of a rebuilt block. -/
theorem reset_eq_construct : State.reset.construct resetImage true = State.reset := by
  decide +kernel

/-- Settles O11: MEM after RESET is canonical and zero in working RAM and its echo. -/
theorem resetStateHasInvariant : Obligations.ResetStateHasInvariant where
  admitted := admitted_default
  wf := wf_resetMem defaultConfig true
  echoes _ := by
    have echoes := construct_echoes (s := State.reset) admitted_default resetImage true
    rw [reset_eq_construct] at echoes
    exact echoes rfl

/-- Settles O12: of the three stores of the booted table none falls on another, and the rest is the fill of MEM. -/
theorem resetStateIsBooted : Obligations.ResetStateIsBooted := by
  refine ⟨rfl, rfl, rfl, rfl, fun a => ?_⟩
  have stores : State.reset.mem =
      Memory.write (Memory.write (Memory.write [] (0xFF00 : Addr).toNat 0xFF) (0xFF41 : Addr).toNat 0x81)
        (0xFF0F : Addr).toNat 0xE1 := rfl
  rw [State.load, stores, Memory.read_write, Memory.read_write, Memory.read_write]
  simp only [BitVec.toNat_inj]
  by_cases p1 : a = 0xFF00
  · subst p1; rfl
  by_cases stat : a = 0xFF41
  · subst stat; rfl
  · rw [if_neg stat, if_neg p1, if_neg p1, if_neg stat]
    rfl

end Sys2Proof.Machine
end

section
/-!
Proofs about reads on the bus: the value of each arm, the read chain, and that no read changes state.
-/
namespace Sys2Proof.Machine

/-! ### The display mode -/

/-- The display mode as a number: STAT modulo 4 (R22). -/
theorem mode_toNat (s : State) : s.mode.toNat = (s.load s.cfg.statAddr).toNat % 4 := by
  rw [State.mode, extract_toNat, Nat.pow_zero, Nat.div_one]
  rfl

theorem mode_eq_iff (s : State) (m : BitVec 2) : s.mode = m ↔ (s.load s.cfg.statAddr).toNat % 4 = m.toNat := by
  rw [← BitVec.toNat_inj, mode_toNat]

/-! ### One arm at a time -/

/-- Settles O18: the arm of DIV responds the upper byte of DIVIDER. -/
theorem divReadsDividerUpperByte : Obligations.DivReadsDividerUpperByte := by
  intro s alive
  rw [exec_rdDiv, State.serve_alive alive, State.respond]

/-- Settles O20: both operations respond a raw read. -/
theorem plainReadsReturnStoredByte : Obligations.PlainReadsReturnStoredByte := by
  intro s a alive
  rw [exec_rdMem, exec_urd, State.serve_alive alive, State.respond]
  exact ⟨rfl, rfl⟩

/-- Settles O19: the two tests of the mode are tests of STAT modulo 4. -/
theorem displayModeBlocksReads : Obligations.DisplayModeBlocksReads := by
  intro s a alive m oam tile
  have hoam : s.readOam a = oam := if_congr (or_congr (mode_eq_iff s 2) (mode_eq_iff s 3)) rfl rfl
  have htile : s.readTile a = tile := if_congr (mode_eq_iff s 3) rfl rfl
  rw [exec_rdOam0, exec_rdOam1, exec_rdTile, State.serve_alive alive, State.serve_alive alive, hoam, htile]
  exact ⟨rfl, rfl, rfl⟩

/-! ### The composed value of P1 -/

theorem dirLines_bit (k : Byte) {i : Nat} (hi : i < 4) : (dirLines k).getLsbD i = !k.getLsbD i := by
  simp [dirLines, hi]

theorem btnLines_bit (k : Byte) {i : Nat} (hi : i < 4) : (btnLines k).getLsbD i = !k.getLsbD (4 + i) := by
  simp [btnLines, hi]

/-- The upper nibble of P1Compose is the stored one (R191). -/
theorem p1Compose_upper (p : P1Both) (draw : BitVec 4) (st k : Byte) :
    (p1Compose p draw st k).extractLsb' 4 4 = st.extractLsb' 4 4 := by
  have mask : (0xF0 : Byte).extractLsb' 4 4 = BitVec.allOnes 4 := by decide
  have lines : ((p1Lines p draw st k).setWidth 8).extractLsb' 4 4 = 0#4 :=
    (field_of_operand (n := 4) (m := 8) _ (by decide)).2
  rw [p1Compose, BitVec.extractLsb'_or, BitVec.extractLsb'_and, mask, lines, BitVec.and_allOnes, BitVec.or_zero]

/-- The lower nibble of P1Compose is that of the composed lines (R191). -/
theorem p1Compose_lower (p : P1Both) (draw : BitVec 4) (st k : Byte) :
    (p1Compose p draw st k).extractLsb' 0 4 = p1Lines p draw st k := by
  have mask : (0xF0 : Byte).extractLsb' 0 4 = 0#4 := by decide
  have lines := (field_of_operand (n := 4) (m := 8) (p1Lines p draw st k) (by decide)).1
  rw [p1Compose, BitVec.extractLsb'_or, BitVec.extractLsb'_and, mask, lines, BitVec.and_zero, BitVec.zero_or]

theorem p1Compose_bit (p : P1Both) (draw : BitVec 4) (st k : Byte) {i : Nat} (hi : i < 4) :
    (p1Compose p draw st k).getLsbD i = (p1Lines p draw st k).getLsbD i := by
  rw [← p1Compose_lower, BitVec.getLsbD_extractLsb']
  simp [hi]

/-- Settles O17: the response composes the stored upper nibble with the lines of the selected groups. -/
theorem p1ReadComposesKeys : Obligations.P1ReadComposesKeys := by
  intro s alive st
  refine ⟨s.readP1, State.serve_alive alive _, p1Compose_upper .., fun dir btn => ?_, fun dir btn i hi => ?_,
    fun dir btn i hi => ?_, fun dir btn => ⟨fun both i hi => ?_, fun both i hi => ?_, fun both i hi => ?_⟩⟩
  · rw [State.readP1, p1Compose_lower, p1Lines, dir, btn]
  all_goals rw [State.readP1, p1Compose_bit _ _ _ _ hi, p1Lines, dir, btn]
  · exact dirLines_bit s.keys hi
  · exact btnLines_bit s.keys hi
  · rw [both]
    exact dirLines_bit s.keys hi
  · rw [both]
    exact btnLines_bit s.keys hi
  · rw [both]
    show (dirLines s.keys &&& btnLines s.keys).getLsbD i = _
    rw [BitVec.getLsbD_and, dirLines_bit s.keys hi, btnLines_bit s.keys hi, Bool.not_or]

/-! ### The read chain -/

/-- With FAILED = 0 the RD command of an address responds the read chain's byte there and changes nothing else. -/
theorem rd_responds {s : State} (hc : admitted s.cfg = true) (alive : s.failed = false) (a : Addr) :
    decode s.cfg (encodeRd a) = .ok (classifyRead s.cfg a) ∧
      exec (classifyRead s.cfg a) s = .next { s with response := some (.byte (s.busRead a)) } :=
  ⟨decode_encodeRd s.cfg a, (exec_classifyRead hc a).trans (State.serve_alive alive _)⟩

/-- Settles O21: the arm of the address runs the chain, whose tests are those of the statement. -/
theorem readChainFirstMatch : Obligations.ReadChainFirstMatch := by
  intro s a hc alive m
  obtain ⟨decoded, run⟩ := rd_responds hc alive a
  refine ⟨_, decoded, _, run, ?_⟩
  have oam : inOam a ∧ (s.mode = 2 ∨ s.mode = 3) ↔ 0xFE00 ≤ a.toNat ∧ a.toNat ≤ 0xFE9F ∧ (m = 2 ∨ m = 3) :=
    and_assoc.trans (and_congr_right' (and_congr_right' (or_congr (mode_eq_iff s 2) (mode_eq_iff s 3))))
  have tile : inTile s.cfg a ∧ s.mode = 3 ↔
      s.cfg.tileLo.toNat ≤ a.toNat ∧ a.toNat ≤ s.cfg.tileHi.toNat ∧ m = 3 :=
    and_assoc.trans (and_congr_right' (and_congr_right' (mode_eq_iff s 3)))
  by_cases h1 : inRom a
  · rw [if_pos h1, State.busRead, if_pos h1]
  rw [if_neg h1]
  by_cases h2 : inXram a
  · rw [if_pos h2, State.busRead, if_neg h1, if_pos h2]
  rw [if_neg h2]
  by_cases h3 : a = s.cfg.p1Addr
  · rw [if_pos h3, State.busRead, if_neg h1, if_neg h2, if_pos h3]
    exact State.serve_alive alive _
  rw [if_neg h3]
  by_cases h4 : a = s.cfg.divAddr
  · rw [if_pos h4, State.busRead, if_neg h1, if_neg h2, if_neg h3, if_pos h4]
  rw [if_neg h4]
  have rest : s.busRead a = if inOam a ∧ (s.mode = 2 ∨ s.mode = 3) then 0xFF
      else if inTile s.cfg a ∧ s.mode = 3 then 0xFF else s.load a := by
    rw [State.busRead, if_neg h1, if_neg h2, if_neg h3, if_neg h4]
  rw [rest, if_congr oam rfl (if_congr tile rfl rfl)]
  split
  · rfl
  · split <;> rfl

/-- Settles O22: each half of RDW is the read chain at its address. -/
theorem wordReadIsTwoReads : Obligations.WordReadIsTwoReads := by
  intro s a hc alive
  obtain ⟨decodedLo, runLo⟩ := rd_responds hc alive a
  obtain ⟨decodedHi, runHi⟩ := rd_responds hc alive (a + 1)
  exact ⟨_, _, decodedLo, decodedHi, _, _, runLo, runHi, State.serve_alive alive _⟩

/-- Settles O23: a read changes the response alone, and reads no response. -/
theorem readsChangeNoState : Obligations.ReadsChangeNoState := by
  intro i s t read run
  obtain ⟨-, r, rfl⟩ := exec_read read run
  exact ⟨rfl, (exec_read_respond read s r).trans run⟩

end Sys2Proof.Machine
end

section
/-!
Proofs about writes on the bus and the DMA engine: the arms of P1, DIV and the windows, the write chain, words as two
writes, echo RAM read back, and the copied page.
-/
namespace Sys2Proof.Machine

/-! ### One arm at a time -/

/-- Settles O24: both arms replace BC by its own write and complete. -/
theorem windowWritesDelegate : Obligations.WindowWritesDelegate := by
  intro s a v alive
  exact ⟨State.serve_alive alive _, State.serve_alive alive _⟩

/-- Settles O26: the arm of DIV clears DIVIDER and completes. -/
theorem divWriteClearsDivider : Obligations.DivWriteClearsDivider := by
  intro s v alive
  exact State.serve_alive alive _

/-- The masked write of P1 takes bits 5 and 4 from the value and the others from the stored byte (R123). -/
theorem p1Mask_bit (st v : Byte) {i : Nat} (hi : i < 8) :
    (st &&& 0xCF ||| v &&& 0x30).getLsbD i = if i = 4 ∨ i = 5 then v.getLsbD i else st.getLsbD i := by
  rw [BitVec.getLsbD_or, BitVec.getLsbD_and, BitVec.getLsbD_and]
  interval_cases i <;> simp

/-- Settles O25: the arm of P1 is one store of the masked byte. -/
theorem p1WriteStoresSelectionBits : Obligations.P1WriteStoresSelectionBits := by
  intro s v alive
  obtain ⟨t, run, only, bytes⟩ := (memOnly_writeP1 s v).serve_complete alive
  refine ⟨t, run, only, fun x hx => ?_, fun i hi => ?_⟩
  · rw [bytes, State.writeP1, State.load_store, if_neg hx]
  · rw [bytes, State.writeP1, State.load_store, if_pos rfl, p1Mask_bit _ _ hi]

/-! ### The write chain -/

/-- With FAILED = 0 the WR command of an address and a byte runs the write chain there. -/
theorem wr_runs {s : State} (hc : admitted s.cfg = true) (alive : s.failed = false) (a : Addr) (v : Byte) :
    decode s.cfg (encodeWr a v) = .ok (classifyWrite s.cfg a v) ∧
      exec (classifyWrite s.cfg a v) s = .next (s.busWrite a v).complete :=
  ⟨decode_encodeWr s.cfg a v, (exec_classifyWrite hc a v).trans (State.serve_alive alive _)⟩

/-- Bit 7 of a byte is clear exactly below 0x80. -/
theorem bit7_clear_iff (v : Byte) : v.getLsbD 7 = false ↔ v.toNat < 0x80 := by
  have := v.isLt
  rw [BitVec.getLsbD, Nat.testBit_eq_decide_div_mod_eq, decide_eq_false_iff_not]
  omega

/-- Outside working RAM and its echo the default store has no mirror. -/
theorem storeDefault_of_outside (s : State) {a : Addr} (v : Byte) (ram : a.toNat < 0xC000 ∨ 0xFDFF < a.toNat) :
    s.storeDefault a v = s.store a v := by
  rw [State.storeDefault, if_neg (by simp only [inMirror]; omega), if_neg (by simp only [inEcho]; omega)]

/-- Settles O31: the arm of the address runs the chain, whose tests are those of the statement; each arm's bytes are
those of its stores. -/
theorem writeChainFirstMatch : Obligations.WriteChainFirstMatch := by
  intro s a v hc alive
  obtain ⟨decoded, run⟩ := wr_runs hc alive a v
  refine ⟨_, _, decoded, run, ?_⟩
  by_cases h1 : inRom a
  · rw [if_pos h1, State.busWrite, if_pos h1]
    rfl
  rw [if_neg h1]
  by_cases h2 : inXram a
  · rw [if_pos h2, State.busWrite, if_neg h1, if_pos h2]
    rfl
  rw [if_neg h2]
  by_cases h3 : a = s.cfg.p1Addr
  · rw [if_pos h3, State.busWrite, if_neg h1, if_neg h2, if_pos h3]
    exact State.serve_alive alive _
  rw [if_neg h3]
  by_cases h4 : a = s.cfg.divAddr
  · rw [if_pos h4, State.busWrite, if_neg h1, if_neg h2, if_neg h3, if_pos h4]
    rfl
  rw [if_neg h4, State.busWrite, if_neg h1, if_neg h2, if_neg h3, if_neg h4]
  have off : a = s.cfg.lcdcAddr ∧ v.getLsbD 7 = false ↔ a = s.cfg.lcdcAddr ∧ v.toNat < 0x80 :=
    and_congr_right' (bit7_clear_iff v)
  by_cases h5 : a = s.cfg.lcdcAddr ∧ v.getLsbD 7 = false
  · rw [if_pos h5, if_pos (off.1 h5)]
    refine ⟨((memOnly_clearMode s).trans (memOnly_storeDefault ..)).onlyMemory_complete, fun x => ?_⟩
    have ram := (admitted_regs hc).lcdc.ram
    rw [State.load_complete, storeDefault_of_outside _ v (h5.1 ▸ ram), State.load_store, load_clearMode]
  rw [if_neg h5, if_neg (mt off.2 h5)]
  by_cases h6 : a = dmaAddr
  · rw [if_pos h6, if_pos (c := a = 0xFF46) h6]
    exact ⟨(memOnly_writeDma s v).onlyMemory_complete, State.serve_alive alive _⟩
  · rw [if_neg h6, if_neg (c := a = 0xFF46) h6]
    refine ⟨(memOnly_storeDefault s a v).onlyMemory_complete, fun x => ?_⟩
    rw [State.load_complete, load_storeDefault, ite_or, ite_or]
    exact if_congr .rfl rfl (if_congr and_assoc rfl (if_congr and_assoc rfl rfl))

/-- A resolved write keeps the port. -/
theorem busWrite_complete_onPort (u : State) (a : Addr) (v : Byte) :
    { (u.busWrite a v).complete with port := u.port } = (u.busWrite a v).complete := by
  rw [← (writeKeeps_busWrite u a v).ports.port]
  rfl

/-- Settles O32: the second write reads neither the response nor the counter that the end of the first one has set. -/
theorem wordWriteIsTwoWrites : Obligations.WordWriteIsTwoWrites := by
  intro s a w hc alive
  obtain ⟨decodedLo, runLo⟩ := wr_runs hc alive a (w.extractLsb' 0 8)
  have both := State.serve_alive alive
    ((s.busWrite a (w.extractLsb' 0 8)).busWrite (a + 1) (w.extractLsb' 8 8)).complete
  have kept := writeKeeps_busWrite s a (w.extractLsb' 0 8)
  refine ⟨_, _, _, _, decodedLo, decode_encodeWr .., runLo, ?_, both⟩
  generalize s.busWrite a (w.extractLsb' 0 8) = u at kept
  rw [← kept.draws, ← kept.ports.cfg]
  show exec _ (u.setIO u.port none) = _
  rw [← busWrite_complete_onPort, ← complete_setIO _ _ none, ← busWrite_setIO]
  have cfg : (u.setIO u.port none).cfg = s.cfg := kept.ports.cfg
  exact (wr_runs (s := u.setIO u.port none) (cfg ▸ hc) (kept.failed.trans alive) _ _).2

/-! ### Working RAM and its echo -/

/-- In working RAM and its echo no arm of the read chain but the default matches. -/
theorem busRead_ram {s : State} (hc : admitted s.cfg = true) {a : Addr} (lo : 0xC000 ≤ a.toNat)
    (hi : a.toNat ≤ 0xFDFF) : s.busRead a = s.load a := by
  have regs := admitted_regs hc
  have oam : ¬ inOam a := by simp only [inOam]; omega
  have tile : ¬ inTile s.cfg a := fun h => by
    have := admitted_tile hc h
    omega
  rw [State.busRead, if_neg (by simp only [inRom]; omega), if_neg (by simp only [inXram]; omega),
    if_neg (regs.p1.ne_of_ram lo hi), if_neg (regs.div.ne_of_ram lo hi), if_neg (fun h => oam h.1),
    if_neg (fun h => tile h.1)]

/-- In working RAM and its echo no arm of the write chain but the default matches. -/
theorem busWrite_ram {s : State} (hc : admitted s.cfg = true) {a : Addr} (v : Byte) (lo : 0xC000 ≤ a.toNat)
    (hi : a.toNat ≤ 0xFDFF) : s.busWrite a v = s.storeDefault a v := by
  have regs := admitted_regs hc
  have dma : a ≠ dmaAddr := by
    have : dmaAddr.toNat = 0xFF46 := rfl
    rintro rfl
    omega
  rw [State.busWrite, if_neg (by simp only [inRom]; omega), if_neg (by simp only [inXram]; omega),
    if_neg (regs.p1.ne_of_ram lo hi), if_neg (regs.div.ne_of_ram lo hi),
    if_neg (fun h => regs.lcdc.ne_of_ram lo hi h.1), if_neg dma]

/-- Settles O33: the default store writes the mirror address too, and the read chain ends there in the stored byte. -/
theorem echoReadsBackWrite : Obligations.EchoReadsBackWrite := by
  intro s a b v hc alive pair
  have range : (0xC000 ≤ a.toNat ∧ a.toNat ≤ 0xFDFF) ∧ 0xC000 ≤ b.toNat ∧ b.toNat ≤ 0xFDFF := by
    rcases pair with ⟨mirror, rfl⟩ | ⟨echo, rfl⟩
    · rw [mirror_toNat mirror]
      simp only [inMirror] at mirror
      omega
    · rw [echo_toNat echo]
      simp only [inEcho] at echo
      omega
  obtain ⟨⟨loA, hiA⟩, loB, hiB⟩ := range
  have kept := writeKeeps_busWrite s a v
  have cfg : (s.busWrite a v).complete.cfg = s.cfg := kept.ports.cfg
  obtain ⟨decodedWr, runWr⟩ := wr_runs hc alive a v
  obtain ⟨decodedRd, runRd⟩ := rd_responds (s := (s.busWrite a v).complete) (cfg ▸ hc) (kept.failed.trans alive) b
  have read : (s.busWrite a v).complete.busRead b = v := by
    rw [busRead_ram (cfg ▸ hc) loB hiB, State.load_complete, busWrite_ram hc v loA hiA, load_storeDefault,
      if_pos (.inr pair)]
  rw [read] at runRd
  exact ⟨_, _, _, decodedWr, cfg ▸ decodedRd, runWr, runRd⟩

/-! ### The display turned off -/

/-- Settles O34: the write leaves mode 0, in which no read is blocked, and the bytes read are not those it stores. -/
theorem displayOffUnblocksReads : Obligations.DisplayOffUnblocksReads := by
  intro s t v a hc run lcdc stat
  obtain ⟨alive, -⟩ := State.serve_eq_next.1 run
  obtain ⟨u, run', only, bytes⟩ := exec_wrLcdcOff_stores alive v
  obtain rfl : t = u := by injection run.symm.trans run'
  have alive' : t.failed = false := only.failed.trans alive
  have mode : t.mode = 0 := by
    rw [State.mode, only.ports.cfg, bytes, if_neg (admitted_distinct hc).lcdc_stat.symm, if_pos rfl,
      extract_mode_and_fc]
  have byte : t.load a = s.load a := by rw [bytes, if_neg lcdc, if_neg stat]
  have oam : t.readOam a = s.load a := by rw [State.readOam, mode, byte, if_neg (by decide)]
  have tile : t.readTile a = s.load a := by rw [State.readTile, mode, byte, if_neg (by decide)]
  rw [exec_rdOam0, exec_rdOam1, exec_rdTile, State.serve_alive alive', State.serve_alive alive', oam, tile]
  exact ⟨rfl, rfl, rfl⟩

/-! ### The DMA engine -/

/-- The address of a source byte, from the page's number (R171). -/
theorem source_eq (page : Byte) {i : Nat} (hi : i < 160) :
    pageAddr page + BitVec.ofNat 16 i = BitVec.ofNat 16 (page.toNat * 256 + i) := by
  have := page.isLt
  apply BitVec.eq_of_toNat_eq
  rw [source_toNat page hi, BitVec.toNat_ofNat]
  omega

/-- What WR of the DMA register leaves: the copied page, the register, every other byte as before (R171 to R174). -/
theorem exec_wrDma_stores {s : State} (hc : admitted s.cfg = true) (alive : s.failed = false) (page : Byte) :
    ∃ t, exec (.wrDma page) s = .next t ∧ s.onlyMemory t ∧
      (∀ i < 160, t.load (BitVec.ofNat 16 (0xFE00 + i)) = s.dmaSource (BitVec.ofNat 16 (page.toNat * 256 + i))) ∧
      t.load dmaAddr = (if s.cfg.dmaRegStore then page else s.load dmaAddr) ∧
      ∀ x : Addr, ¬ inOam x → x ≠ dmaAddr → t.load x = s.load x := by
  have dma : dmaAddr.toNat = 0xFF46 := rfl
  obtain ⟨t, run, only, bytes⟩ := (memOnly_writeDma s page).serve_complete alive
  refine ⟨t, run, only, fun i hi => ?_, ?_, fun x oam register => ?_⟩
  · have dest : (BitVec.ofNat 16 (0xFE00 + i)).toNat = 0xFE00 + i := by
      rw [BitVec.toNat_ofNat]
      omega
    have register : BitVec.ofNat 16 (0xFE00 + i) ≠ dmaAddr := fun h => by
      have := congrArg BitVec.toNat h
      omega
    rw [bytes, load_writeDma hc, if_neg (fun h => register h.1), if_pos (by simp only [inOam]; omega), dest,
      Nat.add_sub_cancel_left, source_eq page hi]
  · rw [bytes, load_writeDma hc, if_neg (by decide : ¬ inOam dmaAddr)]
    exact if_congr (by simp) rfl rfl
  · rw [bytes, load_writeDma hc, if_neg (fun h => register h.1), if_neg oam]

/-- Settles O35: the engine's source is the read chain, which is what RD responds, or the raw read. -/
theorem dmaCopiesPage : Obligations.DmaCopiesPage := by
  intro s page hc alive
  obtain ⟨t, run, only, copied, register, others⟩ := exec_wrDma_stores hc alive page
  refine ⟨t, run, only, fun i hi => ?_, register, others⟩
  have copy := copied i hi
  intro src
  split
  · next bus =>
    obtain ⟨decoded, responds⟩ := rd_responds hc alive src
    rw [State.dmaSource, bus] at copy
    exact ⟨_, decoded, copy ▸ responds⟩
  · next raw =>
    rw [State.dmaSource, raw] at copy
    exact copy

/-- In the sprite table the read chain is the read that the display mode blocks (R105). -/
theorem busRead_oam {s : State} (hc : admitted s.cfg = true) {a : Addr} (h : inOam a) : s.busRead a = s.readOam a := by
  have regs := admitted_regs hc
  have ne {r : Addr} (out : OutsideRanges s.cfg r) : a ≠ r := by
    have := out.oam
    rintro rfl
    simp only [inOam] at h
    omega
  have tile : ¬ inTile s.cfg a := fun tile => by
    have := admitted_tile hc tile
    simp only [inOam] at h
    omega
  simp only [inOam] at h
  rw [State.busRead, if_neg (by simp only [inRom]; omega), if_neg (by simp only [inXram]; omega),
    if_neg (ne regs.p1), if_neg (ne regs.div), if_neg (c := inTile s.cfg a ∧ _) (fun t => tile t.1)]
  exact if_congr (and_iff_right h) rfl rfl

/-- Settles O36: byte `x` of the sprite table is its own source, read through the block of the display mode. -/
theorem dmaOntoItself : Obligations.DmaOntoItself := by
  intro s x hc alive bus oam
  obtain ⟨t, run, -, copied, -⟩ := exec_wrDma_stores hc alive 0xFE
  have hx := oam
  simp only [inOam] at hx
  have self : BitVec.ofNat 16 (0xFE00 + (x.toNat - 0xFE00)) = x := by
    rw [Nat.add_sub_cancel' hx.1, BitVec.ofNat_toNat, BitVec.setWidth_eq]
  have copy := copied (x.toNat - 0xFE00) (by omega)
  have blocked : s.mode = 2 ∨ s.mode = 3 ↔ 2 ≤ (s.load s.cfg.statAddr).toNat % 4 := by
    rw [mode_eq_iff, mode_eq_iff]
    show _ = 2 ∨ _ = 3 ↔ _
    omega
  refine ⟨t, run, ?_⟩
  rw [self] at copy
  rw [copy, State.dmaSource, bus]
  show s.busRead (BitVec.ofNat 16 (0xFE00 + (x.toNat - 0xFE00))) = _
  rw [self, busRead_oam hc oam]
  exact if_congr blocked rfl rfl

/-! ### The cartridge -/

/-- Settles O47: ROM_ONLY reads its image, has no RAM, and ignores writes. -/
theorem romOnlyCartridge : Obligations.RomOnlyCartridge := by
  intro s a v alive romOnly
  obtain ⟨ignoresRom, ignoresRam⟩ := bcWrite_romOnly romOnly a v
  have image : bcReadRom s.bc a = s.bc.rom.getD a.toNat 0xFF := by rw [bcReadRom, romOnly]
  have noRam : bcReadRam s.bc a = 0xFF := by rw [bcReadRam, romOnly]; rfl
  refine ⟨⟨_, State.serve_alive alive _, fun h => ?_, fun h => ?_⟩, ?_, ⟨_, State.serve_alive alive _, ?_⟩,
    ⟨_, State.serve_alive alive _, ?_⟩⟩
  · rw [image, List.getD_eq_getElem _ _ h]
  · rw [image, List.getD_eq_default _ _ h]
  · rw [exec_rdXram, State.serve_alive alive, noRam, State.respond]
  · rw [ignoresRom]
    exact ⟨⟨rfl, rfl, rfl, rfl, rfl⟩, rfl, ⟨rfl, rfl, rfl, rfl⟩⟩
  · rw [ignoresRam]
    exact ⟨⟨rfl, rfl, rfl, rfl, rfl⟩, rfl, ⟨rfl, rfl, rfl, rfl⟩⟩

/-- Settles O48: the two writes of the BankController keep the parts of the contract, and a mapped byte of external RAM
is read where it was written. -/
theorem cartridgeWritesStayInPart : Obligations.CartridgeWritesStayInPart := by
  intro s a v alive
  obtain ⟨variant, rom, xram⟩ := bcWriteRom_keeps s.bc a v
  obtain ⟨variant', rom', bank'⟩ := bcWriteRam_keeps s.bc a v
  refine ⟨⟨_, State.serve_alive alive _, variant, rom, xram, fun romOnly => ?_, fun tag collab => ?_⟩,
    ⟨_, State.serve_alive alive _, variant', rom', bank', fun romOnly => ?_, fun tag collab => ?_⟩⟩
  · exact congrArg _ (bcWrite_romOnly romOnly a v).1
  · exact congrArg _ (bcWriteRom_collab collab a v)
  · exact congrArg _ (bcWrite_romOnly romOnly a v).2
  · have reads (t : State) (ht : t.failed = false) (b : Byte) (hb : bcReadRam t.bc a = b) :
        exec (.rdXram a) t = .next { t with response := some (.byte b) } := by
      rw [exec_rdXram, State.serve_alive ht, hb, State.respond]
    split
    · next unmapped =>
      obtain ⟨ignored, fill⟩ := bcRam_unmapped collab unmapped v
      have stillFill := (congrArg (bcReadRam · a) ignored).trans fill
      exact ⟨congrArg _ ignored, reads (s.setBc (bcWriteRam s.bc a v)).complete alive _ stillFill⟩
    · next k mapped =>
      obtain ⟨stored, readBack⟩ := bcRam_mapped collab mapped v
      exact ⟨congrArg _ stored, reads (s.setBc (bcWriteRam s.bc a v)).complete alive _ readBack⟩

end Sys2Proof.Machine
end

section
/-!
Proofs about the timer: the falling edge as a divisibility, one unit, the closed form of a TICK, and that a TICK may be
split.
-/
namespace Sys2Proof.Machine

/-! ### The falling edge -/

/-- Counting up modulo `n`. -/
theorem succ_mod (k : Nat) {n : Nat} (pos : 0 < n) : (k + 1) % n = if k % n + 1 = n then 0 else k % n + 1 := by
  have low := Nat.mod_lt k pos
  rw [← Nat.mod_add_mod]
  split
  · next wraps => rw [wraps, Nat.mod_self]
  · next counts => exact Nat.mod_eq_of_lt (by omega)

/-- Bit `p` falls from `d` to `d + 1` exactly where `d + 1` is a multiple of 2^(p+1): the increment carries through the
low `p` bits, or it leaves bit `p` alone. -/
theorem testBit_falls_iff (p d : Nat) :
    d.testBit p = true ∧ (d + 1).testBit p = false ↔ (d + 1) % 2 ^ (p + 1) = 0 := by
  rw [Nat.testBit_eq_decide_div_mod_eq, Nat.testBit_eq_decide_div_mod_eq, decide_eq_true_eq, decide_eq_false_iff_not,
    Nat.pow_succ, Nat.mod_mul]
  have pos := Nat.two_pow_pos p
  generalize 2 ^ p = n at *
  simp only [Nat.succ_div, Nat.dvd_iff_mod_eq_zero, succ_mod d pos]
  by_cases carry : d % n + 1 = n
  · rw [if_pos carry, if_pos rfl, Nat.zero_add, Nat.mul_eq_zero]
    omega
  · rw [if_neg carry, if_neg (Nat.succ_ne_zero _)]
    omega

/-- The falling edge of a unit, without the wrap of DIVIDER at 65536, which is a multiple of every period (R144). -/
theorem fallingEdge_iff {p : Nat} (hp : p < 16) (d : Word) :
    fallingEdge p d (d + 1) = true ↔ (d.toNat + 1) % 2 ^ (p + 1) = 0 := by
  have after : (d + 1).getLsbD p = (d.toNat + 1).testBit p := by
    rw [BitVec.getLsbD, BitVec.toNat_add]
    show ((d.toNat + 1) % 2 ^ 16).testBit p = _
    rw [Nat.testBit_mod_two_pow, decide_eq_true hp, Bool.true_and]
  rw [fallingEdge, after, Bool.and_eq_true, Bool.not_eq_true', BitVec.getLsbD, testBit_falls_iff]

/-- Settles O39: the test of bit `p` before and after, and the low `p + 1` bits after, are the same carry. -/
theorem fallingEdgeIsLowBitsZero : Obligations.FallingEdgeIsLowBitsZero := by
  intro p d hp
  have divides : 2 ^ (p + 1) ∣ 2 ^ 16 := Nat.pow_dvd_pow 2 hp
  rw [fallingEdge_iff hp, BitVec.toNat_add]
  exact iff_of_eq (congrArg (· = 0) (Nat.mod_mod_of_dvd _ divides).symm)

/-! ### An enabled timer -/

/-- The clock select of TAC names its divider bit (R142). -/
theorem tacBit_eq (tac : Byte) : tacBit tac = [9, 3, 5, 7].getD (tac.toNat % 4) 0 := by
  have range := Nat.mod_lt tac.toNat (by decide : 4 > 0)
  rw [tacBit]
  generalize tac.toNat % 4 = m at range
  interval_cases m <;> rfl

theorem tacBit_lt (tac : Byte) : tacBit tac < 16 := by
  rw [tacBit]
  split <;> decide

/-- With TAC bit 2 set, TICK runs its units on the bit that TAC selects (R142, R143). -/
theorem tick_enabled {s : State} (on : (s.load s.cfg.tacAddr).getLsbD 2 = true) (n : Nat) :
    s.tick n = State.tickUnits (tacBit (s.load s.cfg.tacAddr)) n s :=
  if_pos on

/-- What a TICK keeps, however many units it runs. -/
theorem tick_complete_keeps (s : State) (n : Nat) :
    (s.tick n).complete.keys = s.keys ∧ (s.tick n).complete.bc = s.bc ∧ (s.tick n).complete.failed = s.failed ∧
      (s.tick n).complete.response = none ∧ s.samePorts (s.tick n).complete := by
  obtain ⟨d, m, only⟩ := tick_keeps s n
  rw [only]
  exact ⟨rfl, rfl, rfl, rfl, rfl, rfl, rfl, rfl⟩

theorem tickUnit_divider (p : Nat) (s : State) : (State.tickUnit p s).divider = s.divider + 1 := by
  rw [tickUnit_eq, State.setDivider_divider]

/-- The bytes after one unit are those of a counted edge, or the ones before (R144). -/
theorem load_tickUnit_eq (p : Nat) (s : State) (x : Addr) :
    (State.tickUnit p s).load x =
      if fallingEdge p s.divider (s.divider + 1) = true then s.countEdge.load x else s.load x := by
  rw [tickUnit_eq, State.load_setDivider, apply_ite (State.load · x)]

/-- Settles O38: one unit is DIVIDER + 1 and, at a falling edge of the bit that TAC selects, a counted edge. -/
theorem enabledTickUnit : Obligations.EnabledTickUnit := by
  intro s hc alive on p edge tima
  have falls : fallingEdge (tacBit (s.load s.cfg.tacAddr)) s.divider (s.divider + 1) = true ↔ edge := by
    rw [fallingEdge, tacBit_eq, Bool.and_eq_true, Bool.not_eq_true']
  have unit : s.tick 1 = State.tickUnit (tacBit (s.load s.cfg.tacAddr)) s := tick_enabled on 1
  obtain ⟨keys, bc, failed, response, ports⟩ := tick_complete_keeps s 1
  refine ⟨(s.tick 1).complete, State.serve_alive alive _, ?_, keys, bc, failed, response, ports, ?_, ?_,
    fun x htima hif => ?_⟩
  · rw [unit, State.complete_divider, tickUnit_divider]
  · rw [unit, State.load_complete, load_tickUnit_eq, load_countEdge hc, if_pos rfl]
    exact if_congr falls rfl rfl
  · rw [unit, State.load_complete, load_tickUnit_eq, load_countEdge hc, if_neg (admitted_distinct hc).tima_if.symm]
    exact (if_congr falls (if_congr (and_iff_right rfl) rfl rfl) rfl).trans (ite_and ..).symm
  · rw [unit, State.load_complete, load_tickUnit_eq, load_countEdge hc, if_neg htima,
      if_neg (c := x = s.cfg.ifAddr ∧ _) (fun h => hif h.1), ite_self]

/-! ### The closed form -/

/-- TIMA after `e` counted edges from 0, with reload value `r`, where TIMA counts on from `r` after 255. -/
def timaAfter (r e : Nat) : Nat := if e ≤ 255 then e else r + (e - 256) % (256 - r)

/-- From 255 TIMA is reloaded, else it counts up. -/
theorem timaAfter_succ {r : Nat} (hr : r ≤ 255) (e : Nat) :
    timaAfter r (e + 1) = if timaAfter r e = 255 then r else timaAfter r e + 1 := by
  unfold timaAfter
  by_cases first : e ≤ 255
  · by_cases full : e = 255
    · subst full
      simp
    · rw [if_pos first, if_pos (by omega), if_neg full]
  · have low := Nat.mod_lt (e - 256) (show 0 < 256 - r by omega)
    rw [if_neg first, if_neg (by omega), show e + 1 - 256 = e - 256 + 1 by omega, succ_mod _ (by omega)]
    split
    · next wraps => rw [if_pos (by omega), Nat.add_zero]
    · next counts => rw [if_neg (by omega), Nat.add_assoc]

/-- TIMA reaches 255 only by counting there. -/
theorem le_of_timaAfter_eq {r e : Nat} (h : timaAfter r e = 255) : 255 ≤ e := by
  unfold timaAfter at h
  split at h <;> omega

/-- The edges that `n` units count from DIVIDER at `d`: the multiples of the period that they pass (R146). -/
def edgesFrom (p d n : Nat) : Nat := (d + n) / 2 ^ (p + 1) - d / 2 ^ (p + 1)

theorem edgesFrom_zero (p d : Nat) : edgesFrom p d 0 = 0 := Nat.sub_self _

/-- One more unit passes a multiple of the period or not. -/
theorem edgesFrom_succ (p d n : Nat) :
    edgesFrom p d (n + 1) = edgesFrom p d n + if (d + n + 1) % 2 ^ (p + 1) = 0 then 1 else 0 := by
  have mono : d / 2 ^ (p + 1) ≤ (d + n) / 2 ^ (p + 1) := Nat.div_le_div_right (Nat.le_add_right d n)
  simp only [edgesFrom, ← Nat.add_assoc, Nat.succ_div, Nat.dvd_iff_mod_eq_zero]
  omega

/-- `u` has the bytes of `s` after `e` counted edges: TIMA has gone on by `e`, and IF has the timer request once TIMA
has overflowed (R145, R146). -/
structure AfterEdges (s u : State) (e : Nat) : Prop where
  cfg  : u.cfg = s.cfg
  tma  : u.load s.cfg.tmaAddr = s.load s.cfg.tmaAddr
  tima : (u.load s.cfg.timaAddr).toNat =
    timaAfter (s.load s.cfg.tmaAddr).toNat ((s.load s.cfg.timaAddr).toNat + e)
  ifr  : u.load s.cfg.ifAddr =
    if 256 ≤ (s.load s.cfg.timaAddr).toNat + e then s.load s.cfg.ifAddr ||| ifTimer else s.load s.cfg.ifAddr

theorem AfterEdges.zero (s : State) : AfterEdges s s 0 := by
  have := (s.load s.cfg.timaAddr).isLt
  refine ⟨rfl, rfl, ?_, ?_⟩
  · rw [timaAfter, if_pos (by omega), Nat.add_zero]
  · rw [if_neg (by omega)]

/-- A counted edge is one edge more. -/
theorem AfterEdges.countEdge {s u : State} {e : Nat} (hc : admitted s.cfg = true) (h : AfterEdges s u e) :
    AfterEdges s u.countEdge (e + 1) := by
  obtain ⟨cfg, tma, tima, ifr⟩ := h
  have distinct := admitted_distinct hc
  have bytes := load_countEdge (s := u) (cfg ▸ hc)
  rw [cfg] at bytes
  have next := timaAfter_succ (Nat.le_of_lt_succ (s.load s.cfg.tmaAddr).isLt) ((s.load s.cfg.timaAddr).toNat + e)
  have full : u.load s.cfg.timaAddr = 0xFF ↔
      timaAfter (s.load s.cfg.tmaAddr).toNat ((s.load s.cfg.timaAddr).toNat + e) = 255 := by
    rw [← tima, ← BitVec.toNat_inj]
    rfl
  refine ⟨(memOnly_countEdge u).cfg_eq.trans cfg, ?_, ?_, ?_⟩
  · rw [bytes, if_neg distinct.tima_tma.symm, if_neg (fun h => distinct.tma_if h.1), tma]
  · rw [bytes, if_pos rfl, ← Nat.add_assoc, next]
    by_cases overflow : u.load s.cfg.timaAddr = 0xFF
    · rw [if_pos overflow, if_pos (full.1 overflow), tma]
    · have low : (u.load s.cfg.timaAddr).toNat + 1 < 256 := by
        have := (u.load s.cfg.timaAddr).isLt
        have := mt full.2 overflow
        omega
      rw [if_neg overflow, if_neg (mt full.2 overflow), BitVec.toNat_add, ← tima]
      exact Nat.mod_eq_of_lt low
  · rw [bytes, if_neg distinct.tima_if.symm, ifr]
    by_cases overflow : u.load s.cfg.timaAddr = 0xFF
    · have reached := le_of_timaAfter_eq (full.1 overflow)
      rw [if_pos ⟨rfl, overflow⟩, if_pos (c := _ ≤ _ + (e + 1)) (by omega), apply_ite (· ||| ifTimer), BitVec.or_assoc,
        BitVec.or_self, ite_self]
    · have passed : (s.load s.cfg.timaAddr).toNat + e ≠ 255 := fun h =>
        overflow (full.2 (by rw [h]; exact if_pos (Nat.le_refl _)))
      rw [if_neg (fun h => overflow h.2)]
      exact if_congr (by omega) rfl rfl

/-- DIVIDER and the bytes after `n` units (R146): the units count the falling edges, one at a time. -/
theorem afterEdges_tickUnits {p : Nat} (hp : p < 16) {s : State} (hc : admitted s.cfg = true) (n : Nat) :
    (State.tickUnits p n s).divider.toNat = (s.divider.toNat + n) % 65536 ∧
      AfterEdges s (State.tickUnits p n s) (edgesFrom p s.divider.toNat n) := by
  induction n with
  | zero => exact ⟨(Nat.mod_eq_of_lt s.divider.isLt).symm, (edgesFrom_zero p _).symm ▸ AfterEdges.zero s⟩
  | succ n ih =>
    obtain ⟨divider, bytes⟩ := ih
    have divides : 2 ^ (p + 1) ∣ 65536 := Nat.pow_dvd_pow 2 hp
    have last : State.tickUnits p (n + 1) s = State.tickUnit p (State.tickUnits p n s) := tickUnits_add p n 1 s
    rw [last]
    generalize State.tickUnits p n s = u at *
    have falls : fallingEdge p u.divider (u.divider + 1) = true ↔
        (s.divider.toNat + n + 1) % 2 ^ (p + 1) = 0 := by
      rw [fallingEdge_iff hp, divider, Nat.add_mod, Nat.mod_mod_of_dvd _ divides, ← Nat.add_mod]
    refine ⟨?_, ?_⟩
    · rw [tickUnit_divider, BitVec.toNat_add, divider]
      show (_ + 1) % 65536 = _
      rw [Nat.mod_add_mod, Nat.add_assoc]
    · rw [edgesFrom_succ, tickUnit_eq]
      by_cases counted : (s.divider.toNat + n + 1) % 2 ^ (p + 1) = 0
      · rw [if_pos counted, if_pos (falls.2 counted)]
        obtain ⟨cfg, tma, tima, ifr⟩ := bytes.countEdge hc
        exact ⟨cfg, tma, tima, ifr⟩
      · rw [if_neg counted, if_neg (mt falls.1 counted), Nat.add_zero]
        obtain ⟨cfg, tma, tima, ifr⟩ := bytes
        exact ⟨cfg, tma, tima, ifr⟩

/-- Settles O40: by the count of edges, unit by unit. -/
theorem tickClosedForm : Obligations.TickClosedForm := by
  intro s n hc alive on period e t0 r
  have run := tick_enabled on n.toNat
  obtain ⟨divider, bytes⟩ := afterEdges_tickUnits (tacBit_lt (s.load s.cfg.tacAddr)) hc n.toNat
  obtain ⟨keys, bc, failed, response, ports⟩ := tick_complete_keeps s n.toNat
  rw [← run] at divider bytes
  have edges : edgesFrom (tacBit (s.load s.cfg.tacAddr)) s.divider.toNat n.toNat = e := by
    rw [edgesFrom, tacBit_eq]
  rw [edges] at bytes
  exact ⟨(s.tick n.toNat).complete, State.serve_alive alive _, divider, keys, bc, failed, response, ports, bytes.tima,
    bytes.ifr, (load_tick hc n.toNat).1⟩

/-! ### Splitting a TICK -/

/-- A TICK leaves TAC as it is, so the next one watches the same bit or is disabled too (R148, R234). -/
theorem tick_add {s : State} (hc : admitted s.cfg = true) {n m : Word} (sum : (n + m).toNat = n.toNat + m.toNat) :
    (s.tick n.toNat).tick m.toNat = s.tick (n + m).toNat := by
  have distinct := admitted_distinct hc
  obtain ⟨d, only⟩ := tick_keeps s n.toNat
  have cfg : (s.tick n.toNat).cfg = s.cfg := only.cfg_eq
  have tac : (s.tick n.toNat).load (s.tick n.toNat).cfg.tacAddr = s.load s.cfg.tacAddr := by
    rw [cfg, (load_tick hc n.toNat).1 _ distinct.tima_tac.symm distinct.tac_if]
  cases mode : (s.load s.cfg.tacAddr).getLsbD 2
  · rw [tick_disabled (s := s.tick n.toNat) (tac ▸ mode), tick_disabled mode, tick_disabled mode, ← BitVec.add_assoc]
    rfl
  · rw [tick_enabled (tac ▸ mode), tac, tick_enabled mode, tick_enabled mode, sum, tickUnits_add]

/-- Settles O41: the second TICK goes on where the first one stopped, and each end counts once. -/
theorem tickSplits : Obligations.TickSplits := by
  intro s n m hc alive small
  have sum : (n + m).toNat = n.toNat + m.toNat := by
    rw [BitVec.toNat_add]
    exact Nat.mod_eq_of_lt small
  obtain ⟨-, -, failed, -⟩ := tick_complete_keeps s n.toNat
  refine ⟨_, _, State.serve_alive alive _, State.serve_alive (failed.trans alive) _, ?_⟩
  rw [exec_tick, State.serve_alive alive, tick_complete, tick_add hc sum]
  obtain ⟨d, mem, only⟩ := tick_keeps s (n + m).toNat
  rw [only]
  rfl

end Sys2Proof.Machine
end

section
/-!
Proofs about the input and display ports: the keys and their request, sprite slots, packed tile rows and tile maps.
-/
namespace Sys2Proof.Machine

/-! ### The keys -/

/-- No key is newly pressed exactly where every key of the new state was pressed before (R195). -/
theorem newlyPressed_eq_zero_iff (old new : Byte) :
    newlyPressed old new = 0 ↔ ∀ i < 8, new.getLsbD i = true → old.getLsbD i = true := by
  have bit {i : Nat} (hi : i < 8) : (newlyPressed old new).getLsbD i = (new.getLsbD i && !old.getLsbD i) := by
    rw [newlyPressed, BitVec.getLsbD_and, BitVec.getLsbD_not, decide_eq_true hi, Bool.true_and]
  constructor
  · intro none i hi pressed
    have clear := bit hi
    rw [none, pressed, Bool.true_and] at clear
    simpa using clear
  · intro all
    refine BitVec.eq_of_getLsbD_eq fun i hi => ?_
    rw [bit hi]
    cases pressed : new.getLsbD i
    · simp
    · simp [all i hi pressed]

/-- Settles O42: KEY raises the request exactly where some key is newly pressed. -/
theorem keyPressRaisesRequest : Obligations.KeyPressRaisesRequest := by
  intro s k alive
  refine ⟨(s.updateKeys k).complete, State.serve_alive alive _, ?_⟩
  obtain ⟨keys, divider, bc, failed, inbox, port, romIn, -, cfg, -⟩ := (updateKeys_keeps s k).fields
  refine ⟨divider, keys, bc, failed, rfl, ⟨inbox, port, romIn, cfg⟩, ?_, ?_, (load_updateKeys s k).1⟩
  · rintro ⟨i, hi, pressed, released⟩
    have some : newlyPressed s.keys k ≠ 0 := fun none =>
      absurd (((newlyPressed_eq_zero_iff ..).1 none i hi pressed).symm.trans released) Bool.true_eq_false.mp
    rw [State.load_complete, State.updateKeys, if_neg some, load_raise]
    exact if_pos rfl
  · intro all
    rw [State.load_complete, State.updateKeys, if_pos ((newlyPressed_eq_zero_iff ..).2 all), State.load_setKeys]

/-! ### Sprite slots -/

/-- The address of byte `i` of slot `k` (R180). -/
theorem slotAddr_add (k : BitVec 6) (i : Nat) :
    slotAddr k + BitVec.ofNat 16 i = BitVec.ofNat 16 (0xFE00 + 4 * k.toNat + i) := by
  apply BitVec.eq_of_toNat_eq
  simp [slotAddr, oamLo]

/-- Settles O43: both rows respond the four bytes of the slot, concatenated. -/
theorem slotReadReturnsDescriptor : Obligations.SlotReadReturnsDescriptor := by
  intro s k alive range
  have run : s.oams k = .next { s with response := some (.slot (s.slotBytes k)) } :=
    oams_eq_next.2 ⟨range, alive, rfl⟩
  exact ⟨_, run, run, fun i hi => (slotBytes_byte s k hi).trans (congrArg s.load (slotAddr_add k i))⟩

/-! ### Packed rows -/

/-- A flag shifted to bit `k`, as a number, then a row. -/
theorem flag_shift_bit (b : Bool) (k : Nat) {n : Nat} (hn : n < 16) :
    (((if b then 1 else 0 : Nat) <<< k : Nat) : BitVec 16).getLsbD n = (decide (n = k) && b) := by
  refine (BitVec.getLsbD_ofNat 16 _ n).trans ?_
  rw [decide_eq_true hn, Bool.true_and]
  cases b
  · rw [if_neg Bool.false_ne_true, Nat.zero_shiftLeft, Nat.zero_testBit, Bool.and_false]
  · rw [if_pos rfl, Nat.one_shiftLeft, Nat.testBit_two_pow, Bool.and_true]
    exact decide_eq_decide.2 eq_comm

/-- Bit `n` of a row is set by the pixel that stands there (R182). -/
theorem pack_bit_iff (lo hi : Byte) {n : Nat} (hn : n < 16) :
    (pack lo hi).getLsbD n = true ↔
      ∃ i < 8, n = 2 * i ∧ lo.getLsbD (7 - i) = true ∨ n = 2 * i + 1 ∧ hi.getLsbD (7 - i) = true := by
  rw [pack, getLsbD_foldl_or]
  have clear : (0 : BitVec 16).getLsbD n = false := BitVec.getLsbD_zero
  simp only [clear, Bool.false_or, List.any_eq_true, List.mem_range, pixel, BitVec.getLsbD_or, flag_shift_bit _ _ hn,
    Bool.or_eq_true, Bool.and_eq_true, decide_eq_true_eq]

/-- Settles O44: of the eight pixels of a row, pixel `j` alone stands in bits 2j and 2j + 1. -/
theorem packInterleavesPlanes : Obligations.PackInterleavesPlanes := by
  intro lo hi j hj
  constructor
  · rw [Bool.eq_iff_iff, pack_bit_iff lo hi (by omega)]
    constructor
    · rintro ⟨i, -, ⟨here, set⟩ | ⟨odd, -⟩⟩
      · obtain rfl : j = i := by omega
        exact set
      · omega
    · exact fun set => ⟨j, hj, .inl ⟨rfl, set⟩⟩
  · rw [Bool.eq_iff_iff, pack_bit_iff lo hi (by omega)]
    constructor
    · rintro ⟨i, -, ⟨even, -⟩ | ⟨here, set⟩⟩
      · omega
      · obtain rfl : j = i := by omega
        exact set
    · exact fun set => ⟨j, hj, .inr ⟨rfl, set⟩⟩

/-! ### Tiles -/

/-- Settles O45: RDT responds the packed rows, one after the other. -/
theorem tileReadPacksRows : Obligations.TileReadPacksRows := by
  intro s a alive
  exact ⟨_, State.serve_alive alive _, fun r hr => tileRows_row s a hr⟩

/-- A sign-extended byte as a number: its signed value modulo 65536 (R183). -/
theorem signExtend_toNat (b : Byte) : ((b.signExtend 16).toNat : Int) = b.toInt % 65536 := by
  have := b.isLt
  rw [BitVec.toNat_signExtend, BitVec.toInt_eq_msb_cond, BitVec.toNat_setWidth, Nat.mod_eq_of_lt (by omega)]
  cases b.msb
  · rw [if_neg Bool.false_ne_true, if_neg Bool.false_ne_true]
    omega
  · rw [if_pos rfl, if_pos rfl]
    omega

/-- Settles O46: RDBT is RDT at the tile's address, whose arithmetic wraps modulo 65536. -/
theorem mapReadFindsTile : Obligations.MapReadFindsTile := by
  intro s a m alive
  refine ⟨s.tileOfMap a m, _, State.serve_alive alive _, State.serve_alive alive _, ?_, ?_⟩
  · rintro rfl
    have := (s.load a).isLt
    have wide : (16 : Addr).toNat = 16 := rfl
    rw [State.tileOfMap, BitVec.toNat_add, BitVec.toNat_mul, wide, BitVec.toNat_setWidth]
    omega
  · rintro rfl
    have index := signExtend_toNat (s.load a)
    have wide : (16 : Addr).toNat = 16 := rfl
    rw [State.tileOfMap, BitVec.toNat_add, BitVec.toNat_mul, wide]
    omega

end Sys2Proof.Machine
end

section
/-!
Proofs about the script's pseudo-operations and about RESET: which variant it builds and what it leaves in the state.
-/
namespace Sys2Proof.Machine

/-! ### The pseudo-operations -/

/-- MODE's byte holds the new mode and the upper bits of the byte just read (R82). -/
theorem modeByte_fields (st : Byte) (m : BitVec 2) :
    (st &&& 0xFC ||| m.setWidth 8).extractLsb' 0 2 = m ∧
      (st &&& 0xFC ||| m.setWidth 8).extractLsb' 2 6 = st.extractLsb' 2 6 := by
  obtain ⟨low, high⟩ := field_of_operand (n := 2) (m := 8) m (by decide)
  constructor
  · rw [BitVec.extractLsb'_or, extract_mode_and_fc, low]
    exact BitVec.zero_or
  · rw [BitVec.extractLsb'_or, extract_upper_and_fc]
    exact (congrArg _ high).trans BitVec.or_zero

/-- The masked write of P1 stores the two selection bits of the value (R123). -/
theorem p1Mask_selection (st v : Byte) : (st &&& 0xCF ||| v &&& 0x30).extractLsb' 4 2 = v.extractLsb' 4 2 := by
  refine BitVec.eq_of_getLsbD_eq fun i hi => ?_
  rw [BitVec.getLsbD_extractLsb', BitVec.getLsbD_extractLsb', p1Mask_bit _ _ (by omega), if_pos (by omega)]

/-- A selection is a WR of P1, which leaves its value's bits 5 and 4 in P1 (R82, R123). -/
theorem selection_runs {s : State} (hc : admitted s.cfg = true) (alive : s.failed = false) (v : Byte) :
    ∃ t, (∃ i, decode s.cfg (encodeWr s.cfg.p1Addr v) = .ok i ∧ exec i s = .next t) ∧
      (t.load s.cfg.p1Addr).extractLsb' 4 2 = v.extractLsb' 4 2 := by
  obtain ⟨decoded, run⟩ := wr_runs hc alive s.cfg.p1Addr v
  refine ⟨_, ⟨_, decoded, run⟩, ?_⟩
  rw [State.load_complete, busWrite_p1 hc, State.writeP1, State.load_store, if_pos rfl, p1Mask_selection]

/-- A KEY command makes its operand the key state (R195). -/
theorem keyWord_runs {s : State} (alive : s.failed = false) (k : Byte) :
    ∃ t, (∃ i, decode s.cfg (scriptKey k) = .ok i ∧ exec i s = .next t) ∧ t.keys = k :=
  ⟨_, ⟨_, decode_keyWord s.cfg k, State.serve_alive alive _⟩, (updateKeys_keeps s k).keys_eq⟩

/-- Settles O55: each expansion is one command, whose operand the operation stores. -/
theorem pseudoOperationsExpand : Obligations.PseudoOperationsExpand := by
  intro s m mask hc alive runs
  obtain ⟨lowBits, highBits⟩ := modeByte_fields (s.load s.cfg.statAddr) m
  obtain ⟨tm, runM, -, bytes⟩ :=
    exec_wrMem_stores alive s.cfg.statAddr (s.load s.cfg.statAddr &&& 0xFC ||| m.setWidth 8)
  have decodedM := decode_encodeWr_plain hc (writesPlain_of_plainRegister hc
    (s.load s.cfg.statAddr &&& 0xFC ||| m.setWidth 8) (a := s.cfg.statAddr) (by simp))
  have stat := (bytes s.cfg.statAddr).trans (if_pos rfl)
  obtain ⟨tp, runP, keysP⟩ := keyWord_runs alive (s.keys ||| mask)
  obtain ⟨tr, runR, keysR⟩ := keyWord_runs alive (s.keys &&& ~~~ mask)
  have div : classifyWrite s.cfg s.cfg.divAddr 0x00 = .wrDiv 0x00 := classifyWrite_of_wf hc rfl (by simp)
  have dma : classifyWrite s.cfg dmaAddr mask = .wrDma mask := classifyWrite_of_wf hc rfl (by simp)
  refine ⟨⟨tm, ⟨_, decodedM, runM⟩, stat ▸ lowBits, stat ▸ highBits⟩, selection_runs hc alive 0x20,
    selection_runs hc alive 0x10, selection_runs hc alive 0x30, ⟨tp, runP, fun i _ => ?_⟩, ⟨tr, runR, fun i hi => ?_⟩,
    ⟨_, ⟨_, (decode_encodeWr ..).trans (congrArg _ div), State.serve_alive alive _⟩, rfl⟩,
    ⟨_, ⟨_, (decode_encodeWr ..).trans (congrArg _ dma), State.serve_alive alive _⟩, State.serve_alive alive _⟩⟩
  · rw [keysP, BitVec.getLsbD_or]
  · rw [keysR, BitVec.getLsbD_and, BitVec.getLsbD_not, decide_eq_true hi, Bool.true_and]

/-! ### Which variant RESET builds -/

/-- The header byte has a variant exactly where the construction succeeds, and then it is that variant (R160, R161). -/
theorem bcNew_eq_start {c : Config} (hc : admitted c = true) {rom : List Byte} {h : Byte} {v : BcVariant}
    (header : rom[c.cartTypeOff]? = some h) (variant : (h, v) ∈ c.bcVariants) : bcNew c rom = .ok (bcStart v rom) := by
  obtain ⟨-, -, -, distinct, -⟩ := admitted_parts hc
  exact bcNew_eq_ok.2 ⟨h, v, header, bcLookup_of_mem distinct variant, rfl⟩

/-- Settles O56: RESET follows the construction, which follows the header byte and BC_VARIANTS. -/
theorem resetSelectsVariant : Obligations.ResetSelectsVariant := by
  intro s b hc
  obtain ⟨inbox, port, romIn, cfg⟩ := construct_ports s s.romIn b
  refine ⟨_, rfl, rfl, ⟨inbox, port, romIn, cfg⟩, ?_⟩
  rcases construct_cases s s.romIn b with ⟨e, fails⟩ | ⟨bc, built, e⟩ <;> rw [e]
  · have none {h v} (header : s.romIn[s.cfg.cartTypeOff]? = some h) : (h, v) ∉ s.cfg.bcVariants :=
      fun variant => fails _ (bcNew_eq_start hc header variant)
    exact ⟨⟨nofun, fun ⟨h, v, header, variant⟩ => absurd variant (none header)⟩,
      fun h v header variant => absurd variant (none header)⟩
  · obtain ⟨h, v, header, variant, rfl⟩ := bcNew_eq_ok.1 built
    refine ⟨⟨fun _ => ⟨h, v, header, bcLookup_mem variant⟩, fun _ => rfl⟩, fun h' v' header' variant' => ?_⟩
    have same : bcStart v s.romIn = bcStart v' s.romIn := by
      injection built.symm.trans (bcNew_eq_start hc header' variant')
    show (bcStart v s.romIn).variant = v' ∧ (bcStart v s.romIn).rom = s.romIn ∧
      (v' = .romOnly → (bcStart v s.romIn).bank = [] ∧ (bcStart v s.romIn).xram = [])
    rw [same]
    exact ⟨bcStart_variant .., bcStart_rom .., by rintro rfl; exact ⟨rfl, rfl⟩⟩

/-! ### What RESET leaves -/

/-- A RESET that did not fail leaves the seeded MEM and DIVIDER, and no key pressed (R220). -/
theorem exec_reset_built {s t : State} {b : Bool} (run : exec (.reset b) s = .next t) (built : t.failed = false) :
    t.mem = resetMem s.cfg b ∧ t.divider = resetDivider s.cfg b ∧ t.keys = 0 := by
  cases run
  rcases construct_cases s s.romIn b with ⟨e, -⟩ | ⟨bc, -, e⟩ <;> rw [e] at built ⊢
  · cases built
  · exact ⟨rfl, rfl, rfl⟩

/-- A byte that the stores of a list agree on. -/
theorem Memory.read_writeAll_of_unique {l : List (Addr × Byte)} {a : Addr} {v : Byte} (m : Memory) (named : (a, v) ∈ l)
    (unique : ∀ e ∈ l, e.1 = a → e.2 = v) : Memory.read (Memory.writeAll m l) a.toNat = v := by
  rw [Memory.read_writeAll]
  cases found : l.reverse.find? (fun e => e.1 == a) with
  | none => simpa using List.find?_eq_none.1 found (a, v) (List.mem_reverse.2 named)
  | some e =>
    exact unique e (List.mem_reverse.1 (List.mem_of_find?_eq_some found)) (by simpa using List.find?_some found)

/-- A byte after a list of stores, the last store to it being known. -/
theorem Memory.read_writeAll_of_last {pre post : List (Addr × Byte)} {a : Addr} {v : Byte} (m : Memory)
    (last : ∀ e ∈ post, e.1 ≠ a) : Memory.read (Memory.writeAll m (pre ++ (a, v) :: post)) a.toNat = v := by
  have split : Memory.writeAll m (pre ++ (a, v) :: post) =
      Memory.writeAll (Memory.write (Memory.writeAll m pre) a.toNat v) post := by
    rw [Memory.writeAll, List.foldl_append, List.foldl_cons]
    rfl
  rw [split, Memory.read_writeAll_of_not_named _ last, Memory.read_write, if_pos rfl]

/-- Settles O57: the bytes of LOGO are stored at different addresses, and no other byte is stored. -/
theorem unbootedResetValues : Obligations.UnbootedResetValues := by
  intro s t hc run built
  obtain ⟨len, low, -⟩ := admitted_parts hc
  obtain ⟨mem, divider, keys⟩ := exec_reset_built run built
  refine ⟨divider, keys, fun i hi => ?_, fun x outside => ?_⟩
  · rw [State.load, mem]
    refine Memory.read_writeAll_of_unique [] ?_ fun e he same => ?_
    · exact List.mem_map.2 ⟨(s.cfg.logo[i], i), List.mk_mem_zipIdx_iff_getElem?.2 (List.getElem?_eq_getElem hi), rfl⟩
    · obtain ⟨j, hj, rfl⟩ := mem_logoStores he
      have index := congrArg BitVec.toNat same
      rw [logoAddr_toNat hc hi, logoAddr_toNat hc hj] at index
      obtain rfl : j = i := by omega
      rfl
  · rw [State.load, mem]
    refine Memory.read_writeAll_of_not_named [] fun e he same => ?_
    obtain ⟨j, hj, rfl⟩ := mem_logoStores he
    have index := congrArg BitVec.toNat same
    rw [logoAddr_toNat hc hj] at index
    omega

/-- Settles O58: BOOT_TABLE_EXTRA names none of the three registers, so each keeps its value, and of two entries for an
address the later one is stored last. -/
theorem bootedResetValues : Obligations.BootedResetValues := by
  intro s t hc run built
  obtain ⟨mem, divider, keys⟩ := exec_reset_built run built
  have distinct := admitted_distinct hc
  have extra {e : Addr × Byte} (he : e ∈ s.cfg.bootTableExtra) :
      e.1 ≠ s.cfg.p1Addr ∧ e.1 ≠ s.cfg.statAddr ∧ e.1 ≠ s.cfg.ifAddr := by
    obtain ⟨-, -, inRange, -⟩ := admitted_parts hc
    have allowed := inRange e he
    simp only [extraAllowed, Bool.and_eq_true, bne_iff_ne, ne_eq] at allowed
    obtain ⟨⟨⟨-, p1⟩, stat⟩, hif⟩ := allowed
    exact ⟨p1, stat, hif⟩
  have last {pre post : List (Addr × Byte)} {x : Addr} {v : Byte} (stores : bootStores s.cfg = pre ++ (x, v) :: post)
      (others : ∀ e ∈ post, e.1 ≠ x) : t.load x = v := by
    rw [State.load, mem]
    show Memory.read (Memory.writeAll [] (bootStores s.cfg)) x.toNat = v
    rw [stores, Memory.read_writeAll_of_last [] others]
  refine ⟨divider, keys, last (pre := []) rfl ?_, last (pre := [(s.cfg.p1Addr, 0xFF)]) rfl ?_,
    last (pre := [(s.cfg.p1Addr, 0xFF), (s.cfg.statAddr, 0x81)]) rfl ?_, fun pre post x v split others => ?_,
    fun x p1 stat hif others => ?_⟩
  · exact List.forall_mem_cons.2 ⟨distinct.p1_stat.symm, List.forall_mem_cons.2 ⟨distinct.p1_if.symm,
      fun e he => (extra he).1⟩⟩
  · exact List.forall_mem_cons.2 ⟨distinct.if_stat, fun e he => (extra he).2.1⟩
  · exact fun e he => (extra he).2.2
  · refine last (pre := (s.cfg.p1Addr, 0xFF) :: (s.cfg.statAddr, 0x81) :: (s.cfg.ifAddr, 0xE1) :: pre) ?_ others
    rw [bootStores, split]
    rfl
  · rw [State.load, mem]
    refine Memory.read_writeAll_of_not_named [] ?_
    simp only [bootStores, if_true, List.cons_append, List.nil_append, List.forall_mem_cons]
    exact ⟨p1.symm, stat.symm, hif.symm, others⟩

/-- Settles O59: RESET reads the parameters, the image and the counter alone, and its end sets the response. -/
theorem resetForgetsOldState : Obligations.ResetForgetsOldState := by
  intro s s' b ports draws
  obtain ⟨inbox, port, romIn, cfg⟩ := ports
  rw [exec_reset, exec_reset, State.construct, State.construct, romIn, cfg]
  cases bcNew s.cfg s.romIn with
  | error e => simp only [State.complete, State.failReset, inbox, port, romIn, cfg, draws]
  | ok bc => simp only [State.complete, inbox, port, draws]

end Sys2Proof.Machine
end
